-- ==== Sys2Proof/Word.lean ====
section
/-! DEFINITION. The words of HUFFCORE: bits, bit sequences, bytes (spec 00_scope.md R9 to R11, 20_memory.md R51).
The conversions between them (bin8, uint, pack, unpack) stand in Machine/Operands.lean. -/

namespace Sys2Proof

/-- `Bit` of R9: `false` is the bit 0, `true` the bit 1. -/
abbrev Bit := Bool

/-- `BitSeq` of R9 and R10: the first element is transmitted, stored and read first. -/
abbrev BitSeq := List Bit

/-- A byte is 8 bits (R51; `BYTE_W` and `HEADER_W` of R7 are fixed by the source). -/
abbrev Byte := BitVec 8

/-- A `Code` is a bit sequence (R9, 30_encoding.md R77); no packed layout is given and none is used. -/
abbrev Code := BitSeq

end Sys2Proof
end

