-- ==== Sys2Proof/Config.lean ====
section
/-! DEFINITION. The parameters of an instance (spec 00_scope.md R7): its symbol type, the size bounds of the host's
loads, and the one-symbol code bit. -/

namespace Sys2Proof

/-- The carrier of `Symbol` of R7: OPEN, "any type with decidable equality; nothing but equality of symbols is ever
used". The natural numbers stand for the members; which of them an instance's symbol type has is its parameter
`Config.Params.symbolCount` (log 1). -/
abbrev Symbol := Nat

namespace Config

/-- The number of symbols of a bit-vector symbol type of width `symW` (`SYM_W` of R7). -/
def symbolsOfWidth (symW : Nat) : Option Nat := some (2 ^ symW)

/-- The OPEN parameters of R7; of the sizes, `none` is "unbounded". They are fixed for an instance and are no state
(R36), so the step takes them as an argument ("OPEN means the model takes the named parameter as an argument"). -/
structure Params where
  /-- `Symbol`: the number of members of the instance's symbol type, the numbers below it; `none` is a type with a
  member for every natural number. `symbolsOfWidth SYM_W` is a symbol type of bit vectors. -/
  symbolCount : Option Nat
  /-- `MAX_TEXT_LEN`: the largest length of a loaded `TEXT`. -/
  maxTextLen : Option Nat
  /-- `MAX_SYMS`: the largest number of entries of a loaded `FT` or `CT`. -/
  maxSyms : Option Nat
  /-- `MAX_IN_LEN`: the largest length of a loaded `IN`, in bytes. -/
  maxInLen : Option Nat
deriving DecidableEq, Repr

/-- The spec's default instance: every bound "default unbounded" (R7). The spec gives `Symbol` no default; here no number
is left out of it (DESIGN CHOICE, log 1). -/
def unbounded : Params := { symbolCount := none, maxTextLen := none, maxSyms := none, maxInLen := none }

/-- `SINGLE_CODE_BIT` of R7, fixed to `0`: the one bit of the code of a one-symbol alphabet (42_code_assigner.md R132). -/
def singleCodeBit : Bit := false

end Config
end Sys2Proof
end

