-- ==== Sys2Proof/Machine/Formats.lean ====
section
/-! DEFINITION. The data formats of HUFFCORE (spec 30_encoding.md R77 to R80, 60_exceptions.md R200, 10_state.md R30). -/

namespace Sys2Proof.Machine

/-- A tree node (R79): the tagged variant {Leaf(Symbol), Internal(left, right)}, with exactly two children, no
weight and no parent link. -/
inductive Node where
  | leaf (sym : Symbol)
  | internal (left right : Node)
deriving DecidableEq, Repr

/-- A frequency table (R80, 10_state.md R22): its entries (symbol, count); the order of the entries is state. -/
abbrev FreqTable := List (Symbol × Nat)

/-- A code table (10_state.md R24): a finite map from symbols to codes, held as the list of its entries in the order
in which the host reads them (log 6). -/
abbrev CodeTable := List (Symbol × Code)

/-- An entry of BUILD's working collection (R14): a node and its weight. -/
abbrev WorkEntry := Node × Nat

/-- The failure kinds of R200; their codes in `ERR` are `FailKind.code` (Machine/Ops.lean). -/
inductive FailKind where
  /-- R201: raised by BUILD and ASSIGN. -/
  | emptyInput
  /-- R202: raised by ENCODE. -/
  | unknownSymbol
  /-- R203: raised by DECODE. -/
  | ambiguousCodeTable
  /-- R204: raised by DECODE, with three causes. -/
  | undecodableStream
  /-- R205: raised by the command decoder. -/
  | illegalCommand
deriving DecidableEq, Repr

/-- `ERR_INFO` (R30): `sub : 0..3`, `index : Nat`, `sym : Option Symbol`; fields a raise does not give are 0 or None (R206). -/
structure ErrInfo where
  sub : Fin 4 := 0
  index : Nat := 0
  sym : Option Symbol := none
deriving DecidableEq, Repr

end Sys2Proof.Machine
end

