-- ==== Sys2Proof/Syntax.lean ====
section
/-! DEFINITION. The commands of HUFFCORE (spec 30_encoding.md R81, R82): one constructor per row of
spec/opcode_table.json. A command has no operand field; its operands are the fixed buffers of 20_memory.md R63. -/

namespace Sys2Proof

/-- The seven commands, in the order of the opcode table. -/
inductive Instr where
  /-- `COUNT`, the frequency counter (R100). -/
  | count
  /-- `BUILD`, the Huffman-tree builder (R110). -/
  | build
  /-- `ASSIGN`, the code-table generator (R130). -/
  | assign
  /-- `ENCODE`, the variable-length encoder (R145). -/
  | encode
  /-- `DECODE`, the variable-length decoder (R160). -/
  | decode
  /-- `CLRERR`, which re-arms the block after a failure (R180). -/
  | clrerr
  /-- `RESET`, the command form of the reset event (R181). -/
  | reset
deriving DecidableEq, Repr

end Sys2Proof
end

