-- ==== Sys2Proof/WellFormed.lean ====
section
/-! DEFINITION. Well-formedness: of commands (none has an operand field, spec 30_encoding.md R81), and of the two
tables whose type is narrower than a list (10_state.md R20: symbols distinct; 45_control_and_host.md R190: codes of
length at least 1). -/

namespace Sys2Proof

/-- A command word is the whole opcode and has no operand (R81), so every command is well formed. -/
abbrev Instr.WellFormed : Instr → Prop
  | .count | .build | .assign | .encode | .decode | .clrerr | .reset => True

namespace Machine

/-- The type of `FT` (R20, R189): pairwise distinct symbols. -/
abbrev FreqTable.WellFormed (ft : FreqTable) : Prop := (ft.map Prod.fst).Nodup

/-- A `CT` is a finite map (R9, R20): distinct keys. -/
abbrev CodeTable.KeysDistinct (ct : CodeTable) : Prop := (ct.map Prod.fst).Nodup

/-- Every code has length at least 1 (R190). -/
abbrev CodeTable.CodesNonEmpty (ct : CodeTable) : Prop := ∀ e ∈ ct, e.2 ≠ []

/-- The type of `CT` (R20, R190). -/
abbrev CodeTable.WellFormed (ct : CodeTable) : Prop := CodeTable.KeysDistinct ct ∧ CodeTable.CodesNonEmpty ct

end Machine
end Sys2Proof
end

