-- ==== Sys2Proof/Decode.lean ====
section
/-! DEFINITION. The command decoder and its encoder (spec 30_encoding.md R81 to R83, spec/opcode_table.json).
The decoder is total: a word that names no command is rejected by name. -/

namespace Sys2Proof

/-- A row of the opcode table: the word's fixed bits (`mask`), their values (`pattern`), and the command. -/
structure OpcodeRow where
  mnemonic : String
  mask : Byte
  pattern : Byte
  instr : Instr
deriving DecidableEq, Repr

/-- The opcode map of R82, row by row as spec/opcode_table.json has it. -/
def opcodeTable : List OpcodeRow :=
  [ { mnemonic := "COUNT",  mask := 0xFF, pattern := 0x01, instr := .count },
    { mnemonic := "BUILD",  mask := 0xFF, pattern := 0x02, instr := .build },
    { mnemonic := "ASSIGN", mask := 0xFF, pattern := 0x03, instr := .assign },
    { mnemonic := "ENCODE", mask := 0xFF, pattern := 0x04, instr := .encode },
    { mnemonic := "DECODE", mask := 0xFF, pattern := 0x05, instr := .decode },
    { mnemonic := "CLRERR", mask := 0xFF, pattern := 0x0E, instr := .clrerr },
    { mnemonic := "RESET",  mask := 0xFF, pattern := 0x0F, instr := .reset } ]

/-- What the decoder reads from a command word. -/
inductive Decoded where
  /-- The word names a command. -/
  | instr (i : Instr)
  /-- A reserved code (R83): the word names no command. -/
  | reserved (op : Byte)
deriving DecidableEq, Repr

/-- The row of the opcode table whose fixed bits a word has, if any. -/
def matchingRow (c : Byte) : Option OpcodeRow :=
  opcodeTable.find? fun r => (c &&& r.mask) == r.pattern

/-- Decode a command word (R81: the whole word is the opcode). -/
def decode (c : Byte) : Decoded :=
  match matchingRow c with
  | some r => .instr r.instr
  | none => .reserved c

/-- The command a decoding stands for; none for a reserved code. -/
def Decoded.toInstr? : Decoded → Option Instr
  | .instr i => some i
  | .reserved _ => none

/-- The command word of a command (R82). -/
def encode : Instr → Byte
  | .count => 0x01
  | .build => 0x02
  | .assign => 0x03
  | .encode => 0x04
  | .decode => 0x05
  | .clrerr => 0x0E
  | .reset => 0x0F

/-- The command word held in the first `nbits` bits of `w`, every bit above them 0 (log 14). -/
def tableWord (nbits w : Nat) : Byte := BitVec.ofNat 8 (w % 2 ^ nbits)

/-- What the decoder reads from a word numbered as spec/opcode_table.json numbers it: bit 0 the least significant. -/
def decodeTableWord (nbits w : Nat) : Option Instr := (decode (tableWord nbits w)).toInstr?

end Sys2Proof
end

