-- ==== Sys2Proof/Machine/Operands.lean ====
section
/-! DEFINITION. How bits, bytes and table entries are read and assembled: `bin8` and `uint` (spec 00_scope.md R11),
`pack` and `unpack` (20_memory.md R52), the payload header (30_encoding.md R75), and the look-ups in a code table. -/

namespace Sys2Proof.Machine

/-- `bin8(v)` (R11): the eight bits of a byte, most significant first. -/
def bin8 (v : Byte) : BitSeq := (List.range 8).map fun j => v.getLsbD (7 - j)

/-- `uint(s)` (R11): the sum of `s[i] * 2^(|s|-1-i)`; the first bit has the greatest weight. -/
def uint : BitSeq → Nat
  | [] => 0
  | b :: s => b.toNat * 2 ^ s.length + uint s

/-- `s[i..j)` of R10. -/
def slice (s : BitSeq) (i j : Nat) : BitSeq := (s.drop i).take (j - i)

/-- `pack(s)` (R52), defined for `|s| mod 8 = 0`: byte `k` is `uint(s[8k .. 8k+8))`. Bits past the last whole byte, which
no command passes, are dropped (log 15). -/
def pack (s : BitSeq) : List Byte :=
  (List.range (s.length / 8)).map fun k => BitVec.ofNat 8 (uint (slice s (8 * k) (8 * k + 8)))

/-- `unpack(b)` (R52): the bytes' bits in order, most significant bit of each byte first. -/
def unpack (b : List Byte) : BitSeq := b.flatMap bin8

/-- The header of a payload as written (R75): `bin8(pad)`. -/
def headerBits (pad : Nat) : BitSeq := bin8 (BitVec.ofNat 8 pad)

/-- The padding length of a body of `len` bits (30_encoding.md R72, 43_bit_packer.md R147): the reference formula. -/
def padLength (len : Nat) : Nat := 8 - len % 8

/-- `CT[s]` (R50: `CT` is addressed by symbol): the code of a symbol, if it has an entry. -/
def codeOf : CodeTable → Symbol → Option Code
  | [], _ => none
  | (t, c) :: ct, s => if t = s then some c else codeOf ct s

/-- `inv[cand]` (44_decoder.md R160): the symbol whose code is the whole bit sequence `cand`, if there is one. -/
def symbolOf : CodeTable → BitSeq → Option Symbol
  | [], _ => none
  | (t, c) :: ct, cand => if c = cand then some t else symbolOf ct cand

/-- "exists s1 != s2 in dom(CT) with CT[s1] = CT[s2]" (R160, R163). -/
def ambiguous (ct : CodeTable) : Bool :=
  ct.any fun e => ct.any fun f => e.1 != f.1 && e.2 == f.2

end Sys2Proof.Machine
end

