-- ==== Sys2Proof/Machine/State.lean ====
section
/-! DEFINITION. The state of HUFFCORE (spec 10_state.md R20), the host's actions (45_control_and_host.md R188 to R193),
and the ways a step can stop. -/

namespace Sys2Proof.Machine

/-- A host write of a whole buffer. No other buffer, flag or register can be written (R193 (b)). -/
inductive HostWrite where
  /-- `HOST WRITE TEXT v` (R188). -/
  | text (v : List Symbol)
  /-- `HOST WRITE FT v` (R189). -/
  | ft (v : FreqTable)
  /-- `HOST WRITE CT v` (R190). -/
  | ct (v : CodeTable)
  /-- `HOST WRITE IN v` (R191). -/
  | input (v : List Byte)
  /-- `HOST WRITE IN OUT` (R191): a read of `OUT` followed by a write of `IN` (log 13). -/
  | inputFromOut
deriving DecidableEq, Repr

/-- What the host can read (R192). `CMD` is write-only (R31). -/
inductive ReadPort where
  | text | ft | tree | ct | input | out | dtext | status | err | errInfo
deriving DecidableEq, Repr

/-- The value a host read returns (R192), by the type of what is read. -/
inductive HostValue where
  | symbols (v : List Symbol)
  | table (v : FreqTable)
  | tree (v : Option Node)
  | codes (v : CodeTable)
  | bytes (v : List Byte)
  | status (v : BitVec 8)
  | err (v : BitVec 3)
  | info (v : ErrInfo)
deriving DecidableEq, Repr

/-- One element of a run (70_reset_and_hazards.md R244), and the reset event (R230). -/
inductive HostEvent where
  /-- A write of the word `c` to `CMD` (R31). -/
  | cmd (c : Byte)
  /-- A host write of a buffer. -/
  | write (w : HostWrite)
  /-- A host read. -/
  | read (x : ReadPort)
  /-- The platform's reset event, between two commands (R230, R231; log 9). -/
  | resetEvent
deriving DecidableEq, Repr

/-- The state of the block: the eleven stored items of R20 (`CMD` stores nothing, R31), and two fields of the MODEL's
own for the host outside the block (`pending`, log 3; `answer`, log 5). -/
structure State where
  /-- `TEXT` (R21), the input text. -/
  text : List Symbol
  /-- `FT` (R22), the frequency table, in order. -/
  ft : FreqTable
  /-- `TREE` (R23). -/
  tree : Option Node
  /-- `CT` (R24), the code table. -/
  ct : CodeTable
  /-- `IN` (R25), the encoded input of DECODE. -/
  input : List Byte
  /-- `OUT` (R26), the encoded output of ENCODE. -/
  out : List Byte
  /-- `DTEXT` (R27), the decoded text. -/
  dtext : List Symbol
  /-- `OUT_VALID` (R28). -/
  outValid : Bool
  /-- `DTEXT_VALID` (R28). -/
  dtextValid : Bool
  /-- `ERR` (R29), 3 bits. -/
  err : BitVec 3
  /-- `ERR_INFO` (R30). -/
  errInfo : ErrInfo
  /-- The MODEL's own: the host's actions still to be applied, first first (log 3). -/
  pending : List HostEvent
  /-- The MODEL's own: what the last host read returned (log 5). -/
  answer : Option HostValue
deriving DecidableEq, Repr

/-- The state after reset (70_reset_and_hazards.md R230): every item at its reset value of R20. The model's own two
fields are empty (DESIGN CHOICE, logs 3 and 5). -/
def State.reset : State where
  text := []
  ft := []
  tree := none
  ct := []
  input := []
  out := []
  dtext := []
  outValid := false
  dtextValid := false
  err := 0
  errInfo := {}
  pending := []
  answer := none

/-- The faults that stop the machine: none. Every failure of the spec is recorded in `ERR` and the block goes on
(60_exceptions.md R206; 70_reset_and_hazards.md R244: "there is no infinite run and no stuck state"), so nothing raises
a fault (log 11, safe). -/
inductive Fault where
deriving DecidableEq, Repr

/-- The ways the model gives an action no step. All but `notModelled` are refused HOST WRITES (R193 (c): "a model gives
such a write no step"); each is raised by `hostWrite` and by nothing else, and each is safe: the block has no such
transition. -/
inductive Refusal where
  /-- An arm of `exec` without a meaning; no arm raises it. Safe. -/
  | notModelled (mnemonic : String)
  /-- `HOST WRITE TEXT` with a member that is no symbol of the instance (R188, R7). Safe. -/
  | textNotSymbol
  /-- `HOST WRITE TEXT` longer than `MAX_TEXT_LEN` (R188). Safe. -/
  | textOverBound
  /-- `HOST WRITE FT` with an entry for what is no symbol of the instance (R189, R7). Safe. -/
  | ftNotSymbol
  /-- `HOST WRITE FT` with a repeated symbol (R189). Safe. -/
  | ftRepeatedSymbol
  /-- `HOST WRITE FT` with more than `MAX_SYMS` entries (R189). Safe. -/
  | ftOverBound
  /-- `HOST WRITE CT` with an entry for what is no symbol of the instance (R190, R7). Safe. -/
  | ctNotSymbol
  /-- `HOST WRITE CT` with two entries for one symbol, which is no finite map (R190). Safe. -/
  | ctRepeatedSymbol
  /-- `HOST WRITE CT` with an empty code (R190). Safe. -/
  | ctEmptyCode
  /-- `HOST WRITE CT` with more than `MAX_SYMS` entries (R190). Safe. -/
  | ctOverBound
  /-- `HOST WRITE IN` longer than `MAX_IN_LEN` (R191). Safe. -/
  | inputOverBound
deriving DecidableEq, Repr

end Sys2Proof.Machine
end

