-- ==== Sys2Proof/Machine/Ops.lean ====
section
/-! DEFINITION. The operations on the state that the commands and host actions share: the writes of the buffers, the
error gate (spec 45_control_and_host.md R183), taking a failure (60_exceptions.md R206), the return from it (R209,
R180), and the reset of every item (R230). -/

namespace Sys2Proof.Machine

namespace State

/-- `TEXT <- v`. -/
def setText (s : State) (v : List Symbol) : State := { s with text := v }
/-- `FT <- v`. -/
def setFt (s : State) (v : FreqTable) : State := { s with ft := v }
/-- `TREE <- v`. -/
def setTree (s : State) (v : Option Node) : State := { s with tree := v }
/-- `CT <- v`: the whole map is replaced (R136, R190). -/
def setCt (s : State) (v : CodeTable) : State := { s with ct := v }
/-- `IN <- v`. -/
def setInput (s : State) (v : List Byte) : State := { s with input := v }
/-- `OUT <- v ; OUT_VALID <- b`: the two are always written together (R28, R206). -/
def setOut (s : State) (v : List Byte) (b : Bool) : State := { s with out := v, outValid := b }
/-- `DTEXT <- v ; DTEXT_VALID <- b`: the two are always written together (R28, R206). -/
def setDtext (s : State) (v : List Symbol) (b : Bool) : State := { s with dtext := v, dtextValid := b }
/-- `ERR <- c ; ERR_INFO <- i`: the two are always written together (R206, R180). -/
def setErr (s : State) (c : BitVec 3) (i : ErrInfo) : State := { s with err := c, errInfo := i }
/-- The host's actions still to come (the model's own field, log 3). -/
def setPending (s : State) (v : List HostEvent) : State := { s with pending := v }
/-- What a host read returned (the model's own field, log 5). -/
def setAnswer (s : State) (v : Option HostValue) : State := { s with answer := v }

end State

/-- The code of a failure kind in `ERR` (R200); 0 is no failure, 6 and 7 are never written (R29). -/
def FailKind.code : FailKind → BitVec 3
  | .emptyInput => 1
  | .unknownSymbol => 2
  | .ambiguousCodeTable => 3
  | .undecodableStream => 4
  | .illegalCommand => 5

/-- Taking a failure, `raise K(info)` (R206): `ERR` and `ERR_INFO` are written, both outputs are emptied and both valid
flags cleared, and every other item keeps its value. -/
def raise (k : FailKind) (info : ErrInfo) (s : State) : State :=
  ((s.setErr k.code info).setOut [] false).setDtext [] false

/-- The return from a failure (R209, R180): `ERR <- 0 ; ERR_INFO <- {0, 0, None}`; what the raise emptied stays empty. -/
def clearError (s : State) : State := s.setErr 0 {}

/-- The error gate (R183): while `ERR != 0` a gated command changes nothing. -/
def gate (f : State → State) (s : State) : State := if s.err = 0 then f s else s

/-- Every item of R20 takes its reset value (R181, R230). The host is outside the block, so what it has still to do and
what it last read stay (log 9). -/
def resetItems (s : State) : State := (State.reset.setPending s.pending).setAnswer s.answer

end Sys2Proof.Machine
end

