-- ==== Sys2Proof/Machine/BitPacker.lean ====
section
/-! DEFINITION. ENCODE, the variable-length encoder (spec 43_bit_packer.md R145 to R151). -/

namespace Sys2Proof.Machine

/-- R145's loop over the text from position `i`, with the codes so far in `body`: the whole body, or the first position
whose symbol is no key of `CT`, with that symbol (R146). -/
def translateText (ct : CodeTable) : Nat → BitSeq → List Symbol → Except (Nat × Symbol) BitSeq
  | _, body, [] => .ok body
  | i, body, s :: text =>
    match codeOf ct s with
    | none => .error (i, s)
    | some c => translateText ct (i + 1) (body ++ c) text

/-- The payload bits of a body (30_encoding.md R71): header, body, padding. -/
def payloadBits (body : BitSeq) : BitSeq :=
  headerBits (padLength body.length) ++ body ++ List.replicate (padLength body.length) false

/-- R145's pseudocode after the gate. -/
def encodeBody (s : State) : State :=
  match translateText s.ct 0 [] s.text with
  | .error (i, x) => raise .unknownSymbol { index := i, sym := some x } s
  | .ok body => s.setOut (pack (payloadBits body)) true

/-- `ENCODE` (R145). -/
def execEncode (s : State) : Host.Outcome State Fault Refusal := .next (gate encodeBody s)

end Sys2Proof.Machine
end

