-- ==== Sys2Proof/Machine/BitUnpacker.lean ====
section
/-! DEFINITION. DECODE, the variable-length decoder (spec 44_decoder.md R160 to R170). -/

namespace Sys2Proof.Machine

/-- What R160's algorithm comes to: the text, or the failure that ends it, in the order of the checks (R170). -/
inductive StreamResult where
  /-- The scan used the whole body. -/
  | text (v : List Symbol)
  /-- Fewer than 8 bits (R161). -/
  | noHeader
  /-- The header value exceeds the bits after it (R162). -/
  | padTooLarge
  /-- Two symbols with one code (R163). -/
  | ambiguousTable
  /-- The body ends inside a candidate that began at bit `start` (R165). -/
  | midCode (start : Nat)
deriving DecidableEq, Repr

/-- The greedy scan (R160, R164): `j` the position of the next body bit, `cand` the candidate, `start` where it began,
`out` the symbols so far. A match is final. -/
def scan (ct : CodeTable) : BitSeq → Nat → BitSeq → Nat → List Symbol → StreamResult
  | [], _, cand, start, out => if cand = [] then .text out else .midCode start
  | b :: body, j, cand, start, out =>
    match symbolOf ct (cand ++ [b]) with
    | some x => scan ct body (j + 1) [] (j + 1) (out ++ [x])
    | none => scan ct body (j + 1) (cand ++ [b]) start out

/-- R160's algorithm on a table and a byte stream. -/
def decodeStream (ct : CodeTable) (input : List Byte) : StreamResult :=
  let bits := unpack input
  if bits.length < 8 then .noHeader
  else
    let pad := uint (slice bits 0 8)
    let rest := bits.drop 8
    if rest.length < pad then .padTooLarge
    else if ambiguous ct then .ambiguousTable
    else scan ct (rest.take (rest.length - pad)) 0 [] 0 []

/-- R160's pseudocode after the gate, with what each raise records (60_exceptions.md R218). -/
def decodeBody (s : State) : State :=
  match decodeStream s.ct s.input with
  | .text v => s.setDtext v true
  | .noHeader => raise .undecodableStream { sub := 1 } s
  | .padTooLarge => raise .undecodableStream { sub := 2 } s
  | .ambiguousTable => raise .ambiguousCodeTable {} s
  | .midCode start => raise .undecodableStream { sub := 3, index := start } s

/-- `DECODE` (R160). -/
def execDecode (s : State) : Host.Outcome State Fault Refusal := .next (gate decodeBody s)

end Sys2Proof.Machine
end

