-- ==== Sys2Proof/Machine/CodeAssigner.lean ====
section
/-! DEFINITION. ASSIGN, the code-table generator (spec 42_code_assigner.md R130 to R136). -/

namespace Sys2Proof.Machine

/-- `walk` (R130): left appends `0`, right appends `1`; the left subtree is listed first (R131). -/
def walk : Node → BitSeq → CodeTable
  | .leaf s, path => [(s, path)]
  | .internal l r, path => walk l (path ++ [false]) ++ walk r (path ++ [true])

/-- The code table of a tree (R130): a root that is itself a leaf gets the one-bit code (R132). -/
def codesOf : Node → CodeTable
  | .leaf s => [(s, [Config.singleCodeBit])]
  | .internal l r => walk (.internal l r) []

/-- R130's pseudocode after the gate: without a tree the raise, with `CT` left as it was (R133); else `CT <- ct`, then
`TREE <- None` (R134). -/
def assignBody (s : State) : State :=
  match s.tree with
  | none => raise .emptyInput {} s
  | some root => (s.setCt (codesOf root)).setTree none

/-- `ASSIGN` (R130). -/
def execAssign (s : State) : Host.Outcome State Fault Refusal := .next (gate assignBody s)

end Sys2Proof.Machine
end

