-- ==== Sys2Proof/Machine/Control.lean ====
section
/-! DEFINITION. The control commands CLRERR and RESET, and the illegal command word (spec 45_control_and_host.md R180
to R183). -/

namespace Sys2Proof.Machine

/-- `CLRERR` (R180): never ignored by the gate. -/
def execClrerr (s : State) : Host.Outcome State Fault Refusal := .next (clearError s)

/-- `RESET` (R181): never ignored by the gate. -/
def execReset (s : State) : Host.Outcome State Fault Refusal := .next (resetItems s)

/-- A command word that names no command (R182): `IllegalCommand`, with the offending code in `ERR_INFO.index` (R218);
ignored by the gate like any other (R183). -/
def illegalCommand (c : Byte) (s : State) : State := gate (raise .illegalCommand { index := c.toNat }) s

end Sys2Proof.Machine
end

