-- ==== Sys2Proof/Machine/FrequencyCounter.lean ====
section
/-! DEFINITION. COUNT, the frequency counter (spec 40_frequency_counter.md R100 to R102). -/

namespace Sys2Proof.Machine

/-- One turn of R100's loop: the count of an entry already there grows by 1 in place, a new symbol goes to the end. -/
def countSymbol (ft : FreqTable) (s : Symbol) : FreqTable :=
  match ft with
  | [] => [(s, 1)]
  | (t, n) :: rest => if t = s then (t, n + 1) :: rest else (t, n) :: countSymbol rest s

/-- R100's loop over the whole text, from the empty table (R102). -/
def countText (text : List Symbol) : FreqTable := text.foldl countSymbol []

/-- `COUNT` (R100). -/
def execCount (s : State) : Host.Outcome State Fault Refusal :=
  .next (gate (fun s => s.setFt (countText s.text)) s)

end Sys2Proof.Machine
end

