-- ==== Sys2Proof/Machine/TreeBuilder.lean ====
section
/-! DEFINITION. BUILD, the Huffman-tree builder (spec 41_tree_builder.md R110 to R120). -/

namespace Sys2Proof.Machine

/-- Insert an entry that stood before all of a sorted collection: before the first entry it is not lighter than. -/
def insertDesc (e : WorkEntry) : List WorkEntry → List WorkEntry
  | [] => [e]
  | f :: w => if f.2 ≤ e.2 then e :: f :: w else f :: insertDesc e w

/-- `sort_desc` (00_scope.md R13): by weight descending, stable. -/
def sortDesc (w : List WorkEntry) : List WorkEntry := w.foldr insertDesc []

/-- The merge of R110 and R112: the last entry of the sorted collection becomes the left child, the one before it the
right child, and the weights add. -/
def mergeEntries (last beforeLast : WorkEntry) : WorkEntry :=
  (.internal last.1 beforeLast.1, last.2 + beforeLast.2)

/-- One turn of R110's loop: sort, remove the last two entries, append their merge at the end. A collection of fewer
than two entries is left as it is. -/
def mergeStep (w : List WorkEntry) : List WorkEntry :=
  match (sortDesc w).reverse with
  | last :: beforeLast :: restRev => restRev.reverse ++ [mergeEntries last beforeLast]
  | _ => w

/-- R110's loop, `while |w| > 1`; `fuel` is the number of turns still allowed. -/
def mergeLoop : Nat → List WorkEntry → List WorkEntry
  | 0, w => w
  | fuel + 1, w => if 1 < w.length then mergeLoop fuel (mergeStep w) else w

/-- The initial working collection (R110, R111 (a)): one leaf per entry, in the order of the table. -/
def initialWork (ft : FreqTable) : List WorkEntry := ft.map fun e => (.leaf e.1, e.2)

/-- The tree of a table (R110); none of the empty table. The loop runs `|FT| - 1` times (R113). -/
def buildTree (ft : FreqTable) : Option Node := ((mergeLoop ft.length (initialWork ft)).head?).map Prod.fst

/-- R110's pseudocode after the gate: `TREE <- None`, then the raise on an empty table, else `TREE <- Some(root)`. -/
def buildBody (s : State) : State :=
  let s := s.setTree none
  match s.ft with
  | [] => raise .emptyInput {} s
  | _ :: _ => s.setTree (buildTree s.ft)

/-- `BUILD` (R110). -/
def execBuild (s : State) : Host.Outcome State Fault Refusal := .next (gate buildBody s)

end Sys2Proof.Machine
end

