-- ==== Sys2Proof/Machine/Flags.lean ====
section
/-! DEFINITION. The status view `STATUS` (spec 10_state.md R32). The block has no condition codes (R28); `OUT_VALID` and
`DTEXT_VALID` are written with their buffers (Machine/Ops.lean). -/

namespace Sys2Proof.Machine

/-- `ERRF` (R32, bit 0): 1 when `ERR != 0`. -/
def errFlag (s : State) : Bool := s.err != 0

/-- `TREE_PRESENT` (R32, bit 3): 1 when `TREE != None`. -/
def treePresent (s : State) : Bool := s.tree.isSome

/-- `STATUS` (R32): bit 0 `ERRF`, bit 1 `OUT_VALID`, bit 2 `DTEXT_VALID`, bit 3 `TREE_PRESENT`, bits 7:4 read as 0. -/
def status (s : State) : BitVec 8 :=
  (0 : BitVec 4) ++ BitVec.ofBool (treePresent s) ++ BitVec.ofBool s.dtextValid ++ BitVec.ofBool s.outValid
    ++ BitVec.ofBool (errFlag s)

end Sys2Proof.Machine
end

