-- ==== Sys2Proof/Machine/HostPort.lean ====
section
/-! DEFINITION. The host port actions (spec 45_control_and_host.md R188 to R193). They are not gated by `ERR` (R183). -/

namespace Sys2Proof.Machine

/-- A length is within a size parameter of 00_scope.md R7. -/
def withinBound : Option Nat → Nat → Bool
  | none, _ => true
  | some m, n => decide (n ≤ m)

/-- A number stands for a symbol of a symbol type with `count` members (R7, `Config.Params.symbolCount`). -/
def isSymbol : Option Nat → Symbol → Bool
  | none, _ => true
  | some count, x => decide (x < count)

/-- Every member of a sequence is a symbol of the type: the sequence is a `Seq Symbol` of the instance (R7, R20). -/
def allSymbols (count : Option Nat) (v : List Symbol) : Bool := v.all (isSymbol count)

/-- Why a host write is refused (R193 (c)), if it is: its value is outside the buffer's type or over its size bound.
`out` is the content of `OUT`, which `HOST WRITE IN OUT` writes. -/
def writeRefusal (p : Config.Params) (out : List Byte) : HostWrite → Option Refusal
  | .text v =>
    if allSymbols p.symbolCount v then
      if withinBound p.maxTextLen v.length then none else some .textOverBound
    else some .textNotSymbol
  | .ft v =>
    if allSymbols p.symbolCount (v.map Prod.fst) then
      if FreqTable.WellFormed v then
        if withinBound p.maxSyms v.length then none else some .ftOverBound
      else some .ftRepeatedSymbol
    else some .ftNotSymbol
  | .ct v =>
    if allSymbols p.symbolCount (v.map Prod.fst) then
      if CodeTable.KeysDistinct v then
        if CodeTable.CodesNonEmpty v then
          if withinBound p.maxSyms v.length then none else some .ctOverBound
        else some .ctEmptyCode
      else some .ctRepeatedSymbol
    else some .ctNotSymbol
  | .input v => if withinBound p.maxInLen v.length then none else some .inputOverBound
  | .inputFromOut => if withinBound p.maxInLen out.length then none else some .inputOverBound

/-- The effect of a host write that is not refused: the one buffer it names is replaced whole (R193 (d)). -/
def storeBuffer (w : HostWrite) (s : State) : State :=
  match w with
  | .text v => s.setText v
  | .ft v => s.setFt v
  | .ct v => s.setCt v
  | .input v => s.setInput v
  | .inputFromOut => s.setInput s.out

/-- A host write (R188 to R191). -/
def hostWrite (p : Config.Params) (w : HostWrite) (s : State) : Host.Outcome State Fault Refusal :=
  match writeRefusal p s.out w with
  | some r => .refused r
  | none => .next (storeBuffer w s)

/-- The value `HOST READ X` returns (R192). -/
def hostValue (x : ReadPort) (s : State) : HostValue :=
  match x with
  | .text => .symbols s.text
  | .ft => .table s.ft
  | .tree => .tree s.tree
  | .ct => .codes s.ct
  | .input => .bytes s.input
  | .out => .bytes s.out
  | .dtext => .symbols s.dtext
  | .status => .status (status s)
  | .err => .err s.err
  | .errInfo => .info s.errInfo

/-- A host read (R192): it changes no item of the block; the value goes to the host (log 5). -/
def hostRead (x : ReadPort) (s : State) : State := s.setAnswer (some (hostValue x s))

end Sys2Proof.Machine
end

