-- ==== Sys2Proof/Machine/Port.lean ====
section
/-! DEFINITION. The command port and the elements of a run (spec 10_state.md R31, 70_reset_and_hazards.md R244), and the
pseudo-commands (45_control_and_host.md R185 to R187). -/

namespace Sys2Proof.Machine

/-- A write of the word `c` to `CMD` (R31): the command whose code is `c` runs to completion; a word that names no
command raises `IllegalCommand` (R182). -/
def issue (c : Byte) (s : State) : Host.Outcome State Fault Refusal :=
  match decode c with
  | .instr i => exec i s
  | .reserved op => .next (illegalCommand op s)

/-- One element of a run, as one indivisible transition (20_memory.md R56). -/
def applyEvent (p : Config.Params) (e : HostEvent) (s : State) : Host.Outcome State Fault Refusal :=
  match e with
  | .cmd c => issue c s
  | .write w => hostWrite p w s
  | .read x => .next (hostRead x s)
  | .resetEvent => .next (resetItems s)

/-- One step of the block with its host: the next action of the host is taken and applied; while the host does nothing
the block stays as it is (log 4). -/
def takeEvent (p : Config.Params) (s : State) : Host.Outcome State Fault Refusal :=
  match s.pending with
  | [] => .next s
  | e :: rest => applyEvent p e (s.setPending rest)

/-- A run (R244): the elements applied one after another; it stops at a refused host write, which is no element of any
run (R193 (c)). -/
def runEvents (p : Config.Params) : List HostEvent → State → Host.Outcome State Fault Refusal
  | [], s => .next s
  | e :: es, s =>
    match applyEvent p e s with
    | .next t => runEvents p es t
    | .fault r => .fault r
    | .refused r => .refused r

/-- A program of commands (30_encoding.md R85), one command word after another. -/
def commands (is : List Instr) : List HostEvent := is.map fun i => .cmd (encode i)

/-- `CODETABLE` (R185). -/
def codetable : List Instr := [.count, .build, .assign]

/-- `COMPRESS` (R186). -/
def compress : List Instr := [.count, .build, .assign, .encode]

/-- `DECOMPRESS` (R187), another name for `DECODE`. -/
def decompress : List Instr := [.decode]

/-- Host actions that load and use the block as the source's `codeTable(text)` does (R86). -/
def codeTableRun (text : List Symbol) : List HostEvent := .write (.text text) :: commands codetable

/-- Host actions that load and use the block as the source's `encode(text, table)` does (R86). -/
def encodeRun (text : List Symbol) (table : CodeTable) : List HostEvent :=
  .write (.text text) :: .write (.ct table) :: commands [.encode]

/-- Host actions that load and use the block as the source's `decode(bytes, table)` does (R86). -/
def decodeRun (bytes : List Byte) (table : CodeTable) : List HostEvent :=
  .write (.input bytes) :: .write (.ct table) :: commands [.decode]

end Sys2Proof.Machine
end

