-- ==== Sys2Proof/Machine/Step.lean ====
section
/-! DEFINITION. The step of the machine, and where its next command word stands. -/

namespace Sys2Proof.Machine

/-- One step of an instance with the parameters `p` (00_scope.md R7). -/
def stepWith (p : Config.Params) (s : State) : Host.Outcome State Fault Refusal := takeEvent p s

/-- One step of the spec's default instance, whose sizes are unbounded (R7; logs 1 and 2). -/
def step (s : State) : Host.Outcome State Fault Refusal := stepWith Config.unbounded s

/-- The host's next action is a write of this word to `CMD` (10_state.md R31, R34: the block fetches nothing; log 3). -/
def State.withFetchWord (s : State) (nbits w : Nat) : State :=
  s.setPending (.cmd (tableWord nbits w) :: s.pending)

end Sys2Proof.Machine
end

