-- ==== Sys2Proof/Safety.lean ====
section
/-! DEFINITION. The terms in which claims about HUFFCORE are stated: what a tree, a table and a parse of a bit stream
are, independent of the algorithms of Machine/ that produce them; the invariant every step keeps; and what counts as a
successful run (spec 70_reset_and_hazards.md R244). -/

namespace Sys2Proof.Machine

/-! ## Trees (30_encoding.md R79, 41_tree_builder.md R118) -/

/-- The symbols of the leaves, left to right. -/
def Node.leaves : Node → List Symbol
  | .leaf s => [s]
  | .internal l r => l.leaves ++ r.leaves

/-- The number of internal nodes. -/
def Node.internals : Node → Nat
  | .leaf _ => 0
  | .internal l r => l.internals + r.internals + 1

/-- Every node of the tree, itself included. -/
def Node.subtrees : Node → List Node
  | .leaf s => [.leaf s]
  | .internal l r => .internal l r :: (l.subtrees ++ r.subtrees)

/-- The node reached from the root by a bit sequence: 0 is the left edge, 1 the right (R8, R77). -/
def Node.follow : Node → BitSeq → Option Node
  | n, [] => some n
  | .leaf _, _ :: _ => none
  | .internal l r, b :: bs => if b then r.follow bs else l.follow bs

/-- The leaves with their depths, left to right; `d` is the depth of this node (the root's is 0). -/
def Node.leafDepths : Node → Nat → List (Symbol × Nat)
  | .leaf s, d => [(s, d)]
  | .internal l r, d => l.leafDepths (d + 1) ++ r.leafDepths (d + 1)

/-- The count of a symbol in a frequency table; 0 if it has no entry. -/
def FreqTable.countOf : FreqTable → Symbol → Nat
  | [], _ => 0
  | (t, n) :: ft, s => if t = s then n else FreqTable.countOf ft s

/-- The weight of a subtree: the sum of its leaves' counts (R118 (d)). -/
def Node.weight (ft : FreqTable) (n : Node) : Nat := (n.leaves.map (FreqTable.countOf ft)).sum

/-! ## Frequency tables (40_frequency_counter.md R100) -/

/-- The distinct symbols of a text in order of first occurrence. -/
def firstOccurrences : List Symbol → List Symbol
  | [] => []
  | s :: text => s :: (firstOccurrences text).filter (· ≠ s)

/-- The sum of the counts of a table. -/
def FreqTable.total (ft : FreqTable) : Nat := (ft.map Prod.snd).sum

/-! ## The conforming priority queue (41_tree_builder.md R119) -/

/-- An entry of the queue: its weight, its age (the position at which it entered the collection) and its node. -/
structure QueueEntry where
  weight : Nat
  age : Nat
  node : Node
deriving DecidableEq, Repr

/-- `a` is popped before `b`: the smaller key `(weight, -age)` (R119). -/
def QueueEntry.before (a b : QueueEntry) : Bool := a.weight < b.weight || (a.weight == b.weight && b.age < a.age)

/-- The entry that is popped first, and the others. -/
def popFirst : QueueEntry → List QueueEntry → QueueEntry × List QueueEntry
  | e, [] => (e, [])
  | e, f :: q =>
    let rest := popFirst f q
    if e.before rest.1 then (e, f :: q) else (rest.1, e :: rest.2)

/-- The queue's loop: pop the left child, pop the right child, push their merge with the next age. `fuel` bounds the
number of turns. -/
def queueLoop : Nat → Nat → List QueueEntry → List QueueEntry
  | 0, _, q => q
  | fuel + 1, age, e :: f :: q =>
    let first := popFirst e (f :: q)
    match first.2 with
    | [] => [first.1]
    | g :: others =>
      let second := popFirst g others
      queueLoop fuel (age + 1)
        ({ weight := first.1.weight + second.1.weight, age := age,
           node := .internal first.1.node second.1.node } :: second.2)
  | _ + 1, _, q => q

/-- The queue's initial content: the leaves, with ages `0 .. n-1` in the order of the table, counted from `age`. -/
def queueLeaves : Nat → FreqTable → List QueueEntry
  | _, [] => []
  | age, e :: ft => { weight := e.2, age := age, node := .leaf e.1 } :: queueLeaves (age + 1) ft

/-- The tree the priority queue builds (R119). -/
def queueTree (ft : FreqTable) : Option Node :=
  ((queueLoop ft.length ft.length (queueLeaves 0 ft)).head?).map QueueEntry.node

/-! ## Code tables and parses (30_encoding.md R77, R78; 44_decoder.md R163, R164) -/

/-- A symbol has an entry in the table (`s in dom(CT)`). -/
abbrev CodeTable.HasSymbol (ct : CodeTable) (s : Symbol) : Prop := s ∈ ct.map Prod.fst

/-- No two distinct symbols have the same code (R163). -/
abbrev CodeTable.Injective (ct : CodeTable) : Prop := ∀ e ∈ ct, ∀ f ∈ ct, e.2 = f.2 → e.1 = f.1

/-- "for all pairs of distinct symbols in a CodeTable, neither code is a prefix of the other" (R135 (c)). -/
abbrev CodeTable.PrefixFree (ct : CodeTable) : Prop := ∀ e ∈ ct, ∀ f ∈ ct, e.1 ≠ f.1 → ¬ e.2 <+: f.2

/-- The codes of a text's symbols, in text order (R73). -/
abbrev CodesOfText (ct : CodeTable) (text : List Symbol) (codes : List Code) : Prop :=
  List.Forall₂ (fun s c => (s, c) ∈ ct) text codes

/-- `i` is the first position of the text whose symbol has no entry in the table (R146). -/
abbrev FirstUnknown (ct : CodeTable) (text : List Symbol) (i : Nat) (s : Symbol) : Prop :=
  text[i]? = some s ∧ ¬ CodeTable.HasSymbol ct s ∧ ∀ t ∈ text.take i, CodeTable.HasSymbol ct t

/-- `e` is an entry that shortest-match decoding can emit: no other code is a proper prefix of its code (R78). -/
abbrev CodeTable.Emittable (ct : CodeTable) (e : Symbol × Code) : Prop :=
  e ∈ ct ∧ e.2 ≠ [] ∧ ∀ f ∈ ct, f.2 ≠ [] → f.2 <+: e.2 → f.2 = e.2

/-- A greedy parse of a body (R164): entries matched one after another, each at its shortest match, and a leftover
candidate no prefix of which is a code. -/
structure GreedyParse (ct : CodeTable) (body : BitSeq) (entries : List (Symbol × Code)) (cand : BitSeq) : Prop where
  bits : body = (entries.map Prod.snd).flatten ++ cand
  matched : ∀ e ∈ entries, CodeTable.Emittable ct e
  leftover : ∀ f ∈ ct, f.2 ≠ [] → ¬ f.2 <+: cand

/-- The body of a stream with header `h` and following bytes `rest` (R162): the last `h` bits dropped. -/
def streamBody (h : Byte) (rest : List Byte) : BitSeq := (unpack rest).take (8 * rest.length - h.toNat)

/-! ## The invariant (10_state.md R28 to R30, R37 (d); 60_exceptions.md R200, R206, R218) -/

/-- What `ERR_INFO` holds for each value of `ERR` (R200, R218). -/
abbrev InfoFits (err : BitVec 3) (info : ErrInfo) : Prop :=
  (err = 0 ∧ info = {}) ∨ (err = 1 ∧ info = {}) ∨ (err = 2 ∧ info.sub = 0 ∧ info.sym ≠ none) ∨ (err = 3 ∧ info = {}) ∨
  (err = 4 ∧ info.sub ≠ 0 ∧ info.sym = none ∧ (info.sub ≠ 3 → info.index = 0)) ∨
  (err = 5 ∧ info.sub = 0 ∧ info.sym = none ∧ info.index < 256 ∧ (decode (BitVec.ofNat 8 info.index)).toInstr? = none)

/-- A payload as ENCODE writes it (R37 (d)): at least two bytes, a header of 1 to 8, and that many zero bits at the end. -/
abbrev PayloadShape (out : List Byte) : Prop :=
  2 ≤ out.length ∧ 1 ≤ (out.headD 0).toNat ∧ (out.headD 0).toNat ≤ 8 ∧
    List.replicate (out.headD 0).toNat false <:+ unpack out

/-- The invariant of the machine: what every state of a run of an instance with the parameters `p` satisfies. -/
structure State.Inv (p : Config.Params) (s : State) : Prop where
  /-- Every item that holds symbols holds symbols of the instance (R7, R20): `TEXT`. -/
  textSymbols : allSymbols p.symbolCount s.text = true
  /-- The symbols of `FT` (R7, R20). -/
  ftSymbols : allSymbols p.symbolCount (s.ft.map Prod.fst) = true
  /-- The leaves of `TREE` (R7, R20). -/
  treeSymbols : ∀ root, s.tree = some root → allSymbols p.symbolCount root.leaves = true
  /-- The keys of `CT` (R7, R20). -/
  ctSymbols : allSymbols p.symbolCount (s.ct.map Prod.fst) = true
  /-- `DTEXT` (R7, R20). -/
  dtextSymbols : allSymbols p.symbolCount s.dtext = true
  /-- The symbol of `ERR_INFO`, if it has one (R7, R30). -/
  infoSymbol : ∀ x, s.errInfo.sym = some x → isSymbol p.symbolCount x = true
  /-- `TEXT` is within its bound (R21). -/
  textBound : withinBound p.maxTextLen s.text.length = true
  /-- `IN` is within its bound (R25). -/
  inputBound : withinBound p.maxInLen s.input.length = true
  /-- The symbols of `FT` are pairwise distinct (R20, R22). -/
  ftDistinct : FreqTable.WellFormed s.ft
  /-- `CT` is a finite map with non-empty codes (R20, R24). -/
  ctTable : CodeTable.WellFormed s.ct
  /-- The leaves of `TREE` are pairwise distinct symbols (R37 (b)). -/
  treeLeaves : ∀ root, s.tree = some root → root.leaves.Nodup
  /-- While `OUT_VALID` is 0, `OUT` is empty (R26, 93_implementation_defined.md V8). -/
  outEmpty : s.outValid = false → s.out = []
  /-- While `OUT_VALID` is 1, `OUT` is a payload (R37 (d)). -/
  outPayload : s.outValid = true → PayloadShape s.out
  /-- While `DTEXT_VALID` is 0, `DTEXT` is empty (R27, V8). -/
  dtextEmpty : s.dtextValid = false → s.dtext = []
  /-- While a failure is recorded no output is valid (R206, R183). -/
  failedOutputs : s.err ≠ 0 → s.outValid = false ∧ s.dtextValid = false
  /-- `ERR` is one of its codes 0 to 5 and `ERR_INFO` fits it (R29, R200, R218). -/
  info : InfoFits s.err s.errInfo

/-- A run that ended in `s` is successful (R244). -/
abbrev State.Successful (s : State) : Prop := s.err = 0

/-! ## A raise, written out (60_exceptions.md R206) -/

/-- The state after a raise with the code `code` and the detail `info` (R206), field by field. -/
def State.failed (s : State) (code : BitVec 3) (info : ErrInfo) : State :=
  { s with
    err := code
    errInfo := info
    out := []
    outValid := false
    dtext := []
    dtextValid := false }

/-- Two next states of a command raised alike (R63, R206): they record the same failure, if any, with the same detail, and
then both have their outputs emptied. -/
structure RaisedAlike (t t' : State) : Prop where
  err : t.err = t'.err
  errInfo : t.err ≠ 0 → t.errInfo = t'.errInfo
  out : t.err ≠ 0 → t.out = t'.out ∧ t.outValid = t'.outValid
  dtext : t.err ≠ 0 → t.dtext = t'.dtext ∧ t.dtextValid = t'.dtextValid

/-! ## Renaming symbols (00_scope.md R7: "nothing but equality of symbols is ever used") -/

/-- The tree with every symbol renamed. -/
def Node.rename (f : Symbol → Symbol) : Node → Node
  | .leaf s => .leaf (f s)
  | .internal l r => .internal (l.rename f) (r.rename f)

/-- The block with every symbol of every item renamed; the host's own fields are left. -/
def State.rename (f : Symbol → Symbol) (s : State) : State :=
  { s with
    text := s.text.map f
    ft := s.ft.map fun e => (f e.1, e.2)
    tree := s.tree.map (Node.rename f)
    ct := s.ct.map fun e => (f e.1, e.2)
    dtext := s.dtext.map f
    errInfo := { s.errInfo with sym := s.errInfo.sym.map f } }

/-- The outcome with every symbol of its next state renamed. -/
def renameOutcome (f : Symbol → Symbol) : Host.Outcome State Fault Refusal → Host.Outcome State Fault Refusal
  | .next s => .next (s.rename f)
  | .fault r => .fault r
  | .refused r => .refused r

end Sys2Proof.Machine
end

