-- ==== Sys2Proof/Certificates/Slice0/Obligations.lean ====
section
/-! DEFINITION. The statements about HUFFCORE for the provers, file by file of the spec. Each says in its docstring which
rule it formalises. -/

open Sys2Proof Sys2Proof.Machine

/-! ## Command words (30_encoding.md) -/

/-- R82: the opcode map. -/
def Obligations.CommandWordsDecodeAsTabled : Prop :=
  decode 0x01 = .instr .count ∧ decode 0x02 = .instr .build ∧ decode 0x03 = .instr .assign ∧
  decode 0x04 = .instr .encode ∧ decode 0x05 = .instr .decode ∧ decode 0x0E = .instr .clrerr ∧
  decode 0x0F = .instr .reset

/-- R81, R82: a command's own word decodes to it, and no other word does. -/
def Obligations.DecodeEncodeAgree : Prop :=
  (∀ i : Instr, i.WellFormed → decode (Sys2Proof.encode i) = .instr i) ∧
  (∀ (c : Byte) (i : Instr), decode c = .instr i → c = Sys2Proof.encode i)

/-- R83 and R182: each of the other 249 words names no command; written to `CMD` it raises `IllegalCommand` with the
word in `ERR_INFO.index`, and is ignored while a failure is recorded; so `CMD <- 0x00` after reset gives `ERR = 5`,
`STATUS = 0x01`. -/
def Obligations.UnlistedWordsRaiseIllegalCommand : Prop :=
  (∀ c : Byte, (c.toNat = 0x00 ∨ (0x06 ≤ c.toNat ∧ c.toNat ≤ 0x0D) ∨ 0x10 ≤ c.toNat) →
    decode c = .reserved c ∧
    ∀ s : State,
      (s.err = 0 → issue c s = .next (s.failed 5 { index := c.toNat })) ∧
      (s.err ≠ 0 → issue c s = .next s)) ∧
  ∃ t, issue 0x00 State.reset = .next t ∧ t.err = 5 ∧ status t = 0x01

/-! ## Bits and bytes (20_memory.md, 00_scope.md) -/

/-- R52: `pack` and `unpack` are inverse, most significant bit first. -/
def Obligations.PackAndUnpackAreInverse : Prop :=
  (∀ s : BitSeq, s.length % 8 = 0 →
    unpack (pack s) = s ∧ (pack s).length = s.length / 8 ∧
    ∀ k b, (pack s)[k]? = some b → b.toNat = uint (slice s (8 * k) (8 * k + 8))) ∧
  (∀ b : List Byte, pack (unpack b) = b) ∧
  (∀ (b : List Byte) (k j : Nat) (v : Byte), b[k]? = some v → j ≤ 7 →
    (unpack b)[8 * k + j]? = some (v.getLsbD (7 - j)))

/-- R11 and R87 (f): `uint` is the weighted sum of R11, and `uint` and `bin8` are exact inverses on 0..255. -/
def Obligations.UintAndBin8AreInverse : Prop :=
  (∀ s : BitSeq,
    uint s = ((List.range s.length).map fun i => (s.getD i false).toNat * 2 ^ (s.length - 1 - i)).sum) ∧
  (∀ v : Byte, (bin8 v).length = 8 ∧ uint (bin8 v) = v.toNat) ∧
  (∀ s : BitSeq, s.length = 8 → uint s < 256 ∧ bin8 (BitVec.ofNat 8 (uint s)) = s)

/-! ## COUNT (40_frequency_counter.md) -/

/-- R100: `FT` becomes the table of the distinct symbols of `TEXT` in order of first occurrence, each with its number of
occurrences; nothing else changes; ignored while `ERR != 0`. -/
def Obligations.CountWritesFirstOccurrenceTable : Prop :=
  decode 0x01 = .instr .count ∧
  ∀ s : State,
    (s.err = 0 → exec .count s =
      .next { s with ft := (firstOccurrences s.text).map fun x => (x, s.text.count x) }) ∧
    (s.err ≠ 0 → exec .count s = .next s)

/-- R101: properties of the counted table. -/
def Obligations.CountedTableProperties : Prop :=
  ∀ s t : State, s.err = 0 → exec .count s = .next t →
    FreqTable.total t.ft = s.text.length ∧
    t.ft.length = s.text.dedup.length ∧
    (∀ e ∈ t.ft, 1 ≤ e.2) ∧
    FreqTable.WellFormed t.ft ∧
    (s.text ≠ [] → (t.ft.head?).map Prod.fst = s.text.head?) ∧
    (∀ s' t' : State, s'.err = 0 → s'.text = s.text → exec .count s' = .next t' → t'.ft = t.ft)

/-! ## BUILD (41_tree_builder.md) -/

/-- 00_scope.md R13: `sort_desc(w)` is a permutation of `w`, descending, stable, and the only such one. -/
def Obligations.SortDescIsTheStableDescendingSort : Prop :=
  ∀ w : List WorkEntry,
    (sortDesc w).Perm w ∧
    (sortDesc w).Pairwise (fun e f => f.2 ≤ e.2) ∧
    (∀ n : Nat, (sortDesc w).filter (fun e => e.2 = n) = w.filter (fun e => e.2 = n)) ∧
    ∀ v : List WorkEntry, v.Perm w → v.Pairwise (fun e f => f.2 ≤ e.2) →
      (∀ n : Nat, v.filter (fun e => e.2 = n) = w.filter (fun e => e.2 = n)) → v = sortDesc w

/-- R113: with `n = |FT| >= 1` the loop runs exactly `n - 1` times, each turn on more than one entry, and ends with one
entry whose weight is the sum of all counts and whose tree, with `n - 1` internal nodes, is the one BUILD stores. -/
def Obligations.BuildLoopRunsOncePerMerge : Prop :=
  ∀ s : State, s.err = 0 → s.ft ≠ [] →
    (∀ k, k ≤ s.ft.length - 1 → (mergeStep^[k] (initialWork s.ft)).length = s.ft.length - k) ∧
    ∃ root, mergeStep^[s.ft.length - 1] (initialWork s.ft) = [(root, FreqTable.total s.ft)] ∧
      root.internals = s.ft.length - 1 ∧
      exec .build s = .next { s with tree := some root }

/-- R116: BUILD on the empty table raises `EmptyInput` and leaves no tree; so does BUILD straight after reset. -/
def Obligations.BuildOnEmptyTableRaises : Prop :=
  (∀ s : State, s.err = 0 → s.ft = [] → exec .build s = .next { s.failed 1 {} with tree := none }) ∧
  State.reset.ft = [] ∧
  exec .build State.reset = .next (State.reset.failed 1 {})

/-- R110, R118 (a) to (e): BUILD of a table with an entry completes and changes only `TREE`; the leaves of the tree are
the symbols of the table, each once; there is one internal node fewer than entries; for distinct symbols no left subtree
is heavier than its right; and the tree is a function of `FT` alone. -/
def Obligations.BuildCompletesWithFullTree : Prop :=
  ∀ s : State, s.err = 0 → s.ft ≠ [] →
    ∃ root, exec .build s = .next { s with tree := some root } ∧
      root.leaves.Perm (s.ft.map Prod.fst) ∧
      root.internals + 1 = s.ft.length ∧
      (FreqTable.WellFormed s.ft → ∀ l r, Node.internal l r ∈ root.subtrees → l.weight s.ft ≤ r.weight s.ft) ∧
      (∀ s' : State, s'.err = 0 → s'.ft = s.ft → exec .build s' = .next { s' with tree := some root })

/-- R115: the worked consequences of the tie-break (symbols a, b, c, d as 0, 1, 2, 3), and the code lengths of the
last. -/
def Obligations.BuildTieBreakConsequences : Prop :=
  exec .build { State.reset with ft := [(0, 1), (1, 1)] } =
    .next { State.reset with
      ft := [(0, 1), (1, 1)]
      tree := some (.internal (.leaf 1) (.leaf 0)) } ∧
  exec .build { State.reset with ft := [(0, 1), (1, 1), (2, 1)] } =
    .next { State.reset with
      ft := [(0, 1), (1, 1), (2, 1)]
      tree := some (.internal (.leaf 0) (.internal (.leaf 2) (.leaf 1))) } ∧
  exec .build { State.reset with ft := [(0, 1), (1, 1), (2, 1), (3, 1)] } =
    .next { State.reset with
      ft := [(0, 1), (1, 1), (2, 1), (3, 1)]
      tree := some (.internal (.internal (.leaf 1) (.leaf 0)) (.internal (.leaf 3) (.leaf 2))) } ∧
  exec .build { State.reset with ft := [(0, 2), (1, 2), (2, 1), (3, 1)] } =
    .next { State.reset with
      ft := [(0, 2), (1, 2), (2, 1), (3, 1)]
      tree := some (.internal (.leaf 0) (.internal (.internal (.leaf 3) (.leaf 2)) (.leaf 1))) } ∧
  (codesOf (.internal (.leaf 0) (.internal (.internal (.leaf 3) (.leaf 2)) (.leaf 1)))).map
      (fun e => (e.1, e.2.length)) = [(0, 1), (3, 3), (2, 3), (1, 2)]

/-- R119: the priority queue keyed by `(weight, -age)`, the first pop the left child and the second the right, builds
the tree BUILD stores. -/
def Obligations.PriorityQueueBuildsTheSameTree : Prop :=
  ∀ s : State, s.err = 0 → s.ft ≠ [] → exec .build s = .next { s with tree := queueTree s.ft }

/-- R114: a table of one entry, of any count, gives its leaf as the root, with no internal node; it is the only case in
which the root is a leaf; and ASSIGN gives that leaf a one-bit code. -/
def Obligations.OneEntryTableGivesBareLeaf : Prop :=
  (∀ (s : State) (x : Symbol) (n : Nat), s.err = 0 → s.ft = [(x, n)] →
    exec .build s = .next { s with tree := some (.leaf x) }) ∧
  (∀ (s t : State) (x : Symbol), s.err = 0 → exec .build s = .next t → t.tree = some (.leaf x) → s.ft.length = 1) ∧
  (∀ (s : State) (x : Symbol), s.err = 0 → s.tree = some (.leaf x) →
    ∃ b : Bit, exec .assign s = .next { s with ct := [(x, [b])], tree := none })

/-! ## ASSIGN (42_code_assigner.md) -/

/-- R130, R131, R132, R136: with a tree ASSIGN completes, replaces the whole of `CT` and consumes `TREE`; the new table
lists the leaves left to right; the only leaf of a bare leaf gets "0"; otherwise the codes are exactly the paths from the
root to the leaves, listed in increasing lexicographic order. -/
def Obligations.AssignListsTheLeafPaths : Prop :=
  ∀ (s : State) (root : Node), s.err = 0 → s.tree = some root →
    ∃ ct : CodeTable, exec .assign s = .next { s with ct := ct, tree := none } ∧
      ct.map Prod.fst = root.leaves ∧
      (∀ x, root = .leaf x → ct = [(x, [false])]) ∧
      (∀ l r, root = .internal l r → ∀ x c, (x, c) ∈ ct ↔ root.follow c = some (.leaf x)) ∧
      (ct.map Prod.snd).Pairwise (· < ·)

/-- R133, R134: without a tree ASSIGN raises `EmptyInput` and leaves `CT` unchanged; that is the case after reset, after a
failed BUILD and after an ASSIGN that consumed the tree. -/
def Obligations.AssignWithoutTreeRaises : Prop :=
  (∀ s : State, s.err = 0 → s.tree = none → exec .assign s = .next (s.failed 1 {})) ∧
  State.reset.tree = none ∧
  (∀ s t : State, s.err = 0 → exec .build s = .next t → t.err ≠ 0 → t.tree = none) ∧
  (∀ s t : State, s.err = 0 → s.tree ≠ none → exec .assign s = .next t →
    t.tree = none ∧ exec .assign t = .next (t.failed 1 {}) ∧ (t.failed 1 {}).ct = t.ct)

/-- R135: the table a successful ASSIGN writes from a tree with distinct leaves: (a) one entry for each leaf symbol,
(b) no empty code, (c) prefix-free, injective, so that DECODE never finds it ambiguous, (d) code lengths are leaf depths,
but for a bare leaf, (e) complete for two symbols or more: every infinite bit sequence has exactly one code as a prefix,
and every finite one is a sequence of codes followed by a proper prefix of a code; the table of a bare leaf is not, and
(f) a function of `TREE` alone. -/
def Obligations.AssignedTableIsPrefixFreeAndComplete : Prop :=
  ∀ (s t : State) (root : Node), s.err = 0 → s.tree = some root → root.leaves.Nodup → exec .assign s = .next t →
    (t.ct.map Prod.fst).Nodup ∧ (∀ x, CodeTable.HasSymbol t.ct x ↔ x ∈ root.leaves) ∧
    (∀ e ∈ t.ct, 1 ≤ e.2.length) ∧
    CodeTable.PrefixFree t.ct ∧ CodeTable.Injective t.ct ∧
    (∀ (v : List Byte) (u : State), exec .decode { t with input := v } = .next u → u.err ≠ 3) ∧
    (∀ l r, root = .internal l r → t.ct.map (fun e => (e.1, e.2.length)) = root.leafDepths 0) ∧
    (∀ x, root = .leaf x → t.ct.map (fun e => (e.1, e.2.length)) = [(x, 1)]) ∧
    (∀ l r, root = .internal l r →
      (∀ stream : Nat → Bit, ∃! e, e ∈ t.ct ∧ e.2 = (List.range e.2.length).map stream) ∧
      (∀ bits : BitSeq, ∃ (entries : List (Symbol × Code)) (rest : BitSeq),
        (∀ e ∈ entries, e ∈ t.ct) ∧ bits = (entries.map Prod.snd).flatten ++ rest ∧
        ∃ e ∈ t.ct, rest <+: e.2 ∧ rest ≠ e.2)) ∧
    (∀ x, root = .leaf x → ∀ e ∈ t.ct, ¬ e.2 <+: [true]) ∧
    (∀ s' t' : State, s'.err = 0 → s'.tree = some root → exec .assign s' = .next t' → t'.ct = t.ct)

/-! ## ENCODE (43_bit_packer.md) -/

/-- R145, R71 to R75: if every symbol of `TEXT` has an entry, ENCODE completes and changes only `OUT` and `OUT_VALID`:
`OUT` is the packing of the 8-bit header `pad`, the codes in text order, and `pad = 8 - (len mod 8)` zero bits. -/
def Obligations.EncodeCompletesWithPayload : Prop :=
  ∀ (s : State) (codes : List Code), s.err = 0 → CodeTable.KeysDistinct s.ct → CodesOfText s.ct s.text codes →
    exec .encode s = .next { s with
      out := pack (bin8 (BitVec.ofNat 8 (8 - codes.flatten.length % 8)) ++ codes.flatten
        ++ List.replicate (8 - codes.flatten.length % 8) false)
      outValid := true }

/-- R146: ENCODE raises `UnknownSymbol` at the first position whose symbol is no key of `CT`, with that position and
symbol; with `CT` empty and `TEXT` not empty, at index 0; and never in `COUNT; BUILD; ASSIGN; ENCODE`. -/
def Obligations.EncodeRaisesAtFirstUnknownSymbol : Prop :=
  (∀ (s : State) (i : Nat) (x : Symbol), s.err = 0 → FirstUnknown s.ct s.text i x →
    exec .encode s = .next (s.failed 2 { index := i, sym := some x })) ∧
  (∀ (s : State) (x : Symbol) (rest : List Symbol), s.err = 0 → s.ct = [] → s.text = x :: rest →
    exec .encode s = .next (s.failed 2 { index := 0, sym := some x })) ∧
  (∀ (p : Config.Params) (s t : State), s.err = 0 →
    runEvents p (commands [.count, .build, .assign, .encode]) s = .next t → t.err ≠ 2)

/-- R148 and R76: the size and the bytes of the output of a successful ENCODE. -/
def Obligations.EncodeOutputSizeAndLastByte : Prop :=
  ∀ (s t : State) (codes : List Code), s.err = 0 → CodeTable.KeysDistinct s.ct → CodesOfText s.ct s.text codes →
    exec .encode s = .next t →
    let len := codes.flatten.length
    let pad := 8 - len % 8
    8 * t.out.length = 8 + len + pad ∧
    t.out.length = 1 + (len + pad) / 8 ∧ t.out.length = 2 + len / 8 ∧
    (t.out.head?).map BitVec.toNat = some pad ∧
    ∃ z, t.out.getLast? = some z ∧ (∀ k, k < pad → z.getLsbD k = false) ∧ (pad = 8 → z = 0x00)

/-- R149: the empty text encodes to `08 00` whatever `CT` holds; in `COUNT; BUILD; ASSIGN; ENCODE` it is BUILD that
raises `EmptyInput` and ENCODE is never reached. -/
def Obligations.EncodeOfEmptyText : Prop :=
  (∀ s : State, s.err = 0 → s.text = [] → exec .encode s = .next { s with out := [0x08, 0x00], outValid := true }) ∧
  (∀ (p : Config.Params) (s : State), s.err = 0 → s.text = [] →
    runEvents p (commands [.count, .build, .assign, .encode]) s =
      .next { s.failed 1 {} with ft := [], tree := none })

/-- R147, R74: `pad` is in 1..8, never 0, and `len + pad` is the least multiple of 8 strictly greater than `len`. -/
def Obligations.PadLengthIsLeastStrictRoundUp : Prop :=
  ∀ len : Nat, padLength len = 8 - len % 8 ∧ 1 ≤ padLength len ∧ padLength len ≤ 8 ∧
    (len + padLength len) % 8 = 0 ∧ ∀ m, len < m → m % 8 = 0 → len + padLength len ≤ m

/-! ## DECODE (44_decoder.md) -/

/-- R170 with R161, R162, R163: the checks in their order, and which failure is reported when several apply; past all
three the only failure left is a body that ends inside a candidate. -/
def Obligations.DecodeChecksInOrder : Prop :=
  ∀ s : State, s.err = 0 →
    (s.input = [] → exec .decode s = .next (s.failed 4 { sub := 1 })) ∧
    (∀ (h : Byte) (rest : List Byte), s.input = h :: rest →
      (8 * rest.length < h.toNat → exec .decode s = .next (s.failed 4 { sub := 2 })) ∧
      (h.toNat ≤ 8 * rest.length → ¬ CodeTable.Injective s.ct → exec .decode s = .next (s.failed 3 {})) ∧
      (h.toNat ≤ 8 * rest.length → CodeTable.Injective s.ct →
        (∃ v, exec .decode s = .next { s with dtext := v, dtextValid := true }) ∨
        (∃ start, start < 8 * rest.length - h.toNat ∧
          exec .decode s = .next (s.failed 4 { sub := 3, index := start }))))

/-- R164, R165, R78: past the checks, the body has a greedy parse, and whatever greedy parse it has decides the outcome:
with nothing left over DECODE completes with the matched symbols and changes only `DTEXT` and `DTEXT_VALID`; otherwise it
raises `UndecodableStream`, sub 3, at the position of the leftover candidate's first bit. -/
def Obligations.DecodeFollowsTheGreedyParse : Prop :=
  ∀ (s : State) (h : Byte) (rest : List Byte),
    s.err = 0 → s.input = h :: rest → h.toNat ≤ 8 * rest.length → CodeTable.Injective s.ct →
    (∃ entries cand, GreedyParse s.ct (streamBody h rest) entries cand) ∧
    ∀ entries cand, GreedyParse s.ct (streamBody h rest) entries cand →
      (cand = [] → exec .decode s = .next { s with dtext := entries.map Prod.fst, dtextValid := true }) ∧
      (cand ≠ [] → exec .decode s =
        .next (s.failed 4 { sub := 3, index := 8 * rest.length - h.toNat - cand.length }))

/-- R167, R162: the stripped bits are not examined: payloads with one header whose bytes differ only in the last `pad`
bits decode alike. -/
def Obligations.StrippedBitsAreNotExamined : Prop :=
  ∀ (s : State) (h : Byte) (rest rest' : List Byte),
    h.toNat ≤ 8 * rest.length → rest'.length = rest.length →
    (unpack rest').take (8 * rest.length - h.toNat) = (unpack rest).take (8 * rest.length - h.toNat) →
    ∀ t t' : State, exec .decode { s with input := h :: rest } = .next t →
      exec .decode { s with input := h :: rest' } = .next t' →
      { t' with input := t.input } = t

/-- R168: when the bits after the header number exactly `pad`, DECODE of an injective table completes with the empty
text; `08 00` and `00` are such streams. -/
def Obligations.DecodeOfEmptyBodyCompletes : Prop :=
  (∀ (s : State) (h : Byte) (rest : List Byte),
    s.err = 0 → s.input = h :: rest → h.toNat = 8 * rest.length → CodeTable.Injective s.ct →
    exec .decode s = .next { s with dtext := [], dtextValid := true }) ∧
  (∀ s : State, s.err = 0 → CodeTable.Injective s.ct → (s.input = [0x08, 0x00] ∨ s.input = [0x00]) →
    exec .decode s = .next { s with dtext := [], dtextValid := true })

/-- R166, R78: DECODE never emits a symbol whose code has another code as a proper prefix. -/
def Obligations.LongerCodeIsNeverEmitted : Prop :=
  ∀ s t : State, s.err = 0 → exec .decode s = .next t → t.err = 0 →
    ∀ x ∈ t.dtext, ∃ c, CodeTable.Emittable s.ct (x, c)

/-- R166, R235 on the spec's own streams (V-D1, V-D2, V-D3; a, b, c, d, r, x, y as 0, 1, 2, 3, 4, 5, 6): a foreign table
may be detected (`04 10` under the table of "abracadabra"), and may not be: `04 10` decodes under another table to
"xxxy", and `04 3E C0`, the payload of both "xxyyab" and "yyxxab", decodes under the table of the second to the second. -/
def Obligations.ForeignTableMayGoUndetected : Prop :=
  exec .decode { State.reset with
      input := [0x04, 0x10]
      ct := [(0, [false]), (1, [true, false]), (3, [true, true, false, false]), (2, [true, true, false, true]),
        (4, [true, true, true])] } =
    .next { State.reset with
      input := [0x04, 0x10]
      ct := [(0, [false]), (1, [true, false]), (3, [true, true, false, false]), (2, [true, true, false, true]),
        (4, [true, true, true])]
      err := 4
      errInfo := { sub := 3, index := 3 } } ∧
  exec .decode { State.reset with
      input := [0x04, 0x10]
      ct := [(5, [false]), (6, [true])] } =
    .next { State.reset with
      input := [0x04, 0x10]
      ct := [(5, [false]), (6, [true])]
      dtext := [5, 5, 5, 6]
      dtextValid := true } ∧
  ∃ t u v : State,
    runEvents Config.unbounded (.write (.text [5, 5, 6, 6, 0, 1]) :: commands compress) State.reset = .next t ∧
    runEvents Config.unbounded (.write (.text [6, 6, 5, 5, 0, 1]) :: commands compress) State.reset = .next u ∧
    t.out = [0x04, 0x3E, 0xC0] ∧ u.out = t.out ∧ u.ct ≠ t.ct ∧
    exec .decode { u with input := t.out } = .next v ∧ v.err = 0 ∧ v.dtext = [6, 6, 5, 5, 0, 1]

/-- R169: the round trip. From any state without a failure, after `COUNT; BUILD; ASSIGN; ENCODE` of a non-empty text,
copying `OUT` to `IN` (where `OUT` is within the bound of `IN`) and DECODE give the text back; and the same of ENCODE with
any finite map that has an entry for every symbol, no empty code, and no code a prefix of another. -/
def Obligations.DecodeReturnsTheEncodedText : Prop :=
  (∀ (p : Config.Params) (s : State), s.err = 0 → s.text ≠ [] →
    (∀ u, runEvents p (commands [.count, .build, .assign, .encode]) s = .next u →
      withinBound p.maxInLen u.out.length = true) →
    ∃ t, runEvents p (commands [.count, .build, .assign, .encode] ++ .write .inputFromOut :: commands [.decode]) s
        = .next t ∧ t.dtext = s.text ∧ t.dtextValid = true ∧ t.err = 0) ∧
  (∀ (p : Config.Params) (s : State), s.err = 0 → CodeTable.WellFormed s.ct →
    CodeTable.PrefixFree s.ct → (∀ x ∈ s.text, CodeTable.HasSymbol s.ct x) →
    (∀ u, exec .encode s = .next u → withinBound p.maxInLen u.out.length = true) →
    ∃ t, runEvents p (commands [.encode] ++ .write .inputFromOut :: commands [.decode]) s
        = .next t ∧ t.dtext = s.text ∧ t.dtextValid = true ∧ t.err = 0)

/-- 30_encoding.md R86: with `codeTable`, `encode` and `decode` the runs they stand for, each from any state without a
failure, `decode(encode(text, codeTable(text)), codeTable(text)) == text` for every non-empty text; for the empty text
`codeTable` raises `EmptyInput`. -/
def Obligations.FunctionalNotationRoundTrips : Prop :=
  (∀ (text : List Symbol) (s1 s2 s3 : State), text ≠ [] → s1.err = 0 → s2.err = 0 → s3.err = 0 →
    ∃ t1 t2 t3 : State,
      runEvents Config.unbounded (codeTableRun text) s1 = .next t1 ∧ t1.err = 0 ∧
      runEvents Config.unbounded (encodeRun text t1.ct) s2 = .next t2 ∧ t2.err = 0 ∧
      runEvents Config.unbounded (decodeRun t2.out t1.ct) s3 = .next t3 ∧ t3.err = 0 ∧
      t3.dtext = text) ∧
  (∀ s : State, s.err = 0 → ∃ t, runEvents Config.unbounded (codeTableRun []) s = .next t ∧ t.err = 1)

/-! ## Control commands and the gate (45_control_and_host.md) -/

/-- R180: CLRERR, never ignored, clears `ERR` and `ERR_INFO` and nothing else; where no failure is recorded it changes
nothing. -/
def Obligations.ClrerrClearsOnlyTheError : Prop :=
  decode 0x0E = .instr .clrerr ∧
  (∀ s : State, exec .clrerr s = .next { s with err := 0, errInfo := {} }) ∧
  (∀ s : State, s.err = 0 → s.errInfo = {} → exec .clrerr s = .next s) ∧
  (∀ s t : State, exec .clrerr s = .next t → (status t).getLsbD 0 = false)

/-- R181, R230: RESET, never ignored, and the reset event put every item at its reset value, which are the values of the
state after reset; `STATUS` then reads 0x00. That the model's own two fields `pending` and `answer` (logs 3 and 5) are
kept is the model's choice (DESIGN CHOICE, log 9), not the spec's. -/
def Obligations.ResetPutsEveryItemAtItsResetValue : Prop :=
  decode 0x0F = .instr .reset ∧
  ∀ (p : Config.Params) (s : State), ∃ t : State, exec .reset s = .next t ∧ applyEvent p .resetEvent s = .next t ∧
    t = { s with
      text := []
      ft := []
      tree := none
      ct := []
      input := []
      out := []
      dtext := []
      outValid := false
      dtextValid := false
      err := 0
      errInfo := { sub := 0, index := 0, sym := none } } ∧
    t = { State.reset with pending := s.pending, answer := s.answer } ∧
    status t = 0x00

/-- R183, R192: while `ERR != 0` a write to `CMD` of any value other than 0x0E and 0x0F changes nothing, and host port
actions are not gated: they do as they do when `ERR` is 0. That what a read returns stands in the model's own field
`answer` is the model's choice (DESIGN CHOICE, log 5). -/
def Obligations.GateIgnoresAllButClrerrAndReset : Prop :=
  (∀ (c : Byte) (s : State), s.err ≠ 0 → c ≠ 0x0E → c ≠ 0x0F → issue c s = .next s) ∧
  (∀ (p : Config.Params) (w : HostWrite) (s t : State), hostWrite p w { s with err := 0, errInfo := {} } = .next t →
    hostWrite p w s = .next { t with err := s.err, errInfo := s.errInfo }) ∧
  (∀ (p : Config.Params) (x : ReadPort) (s : State),
    applyEvent p (.read x) s = .next { s with answer := some (hostValue x s) })

/-- R184: what each command does when its producer has not run. -/
def Obligations.OutOfOrderCommands : Prop :=
  ∀ s : State, s.err = 0 →
    (s.text = [] → exec .count s = .next { s with ft := [] }) ∧
    (s.ft = [] → exec .build s = .next { s.failed 1 {} with tree := none }) ∧
    (s.tree = none → exec .assign s = .next (s.failed 1 {})) ∧
    (∀ x rest, s.ct = [] → s.text = x :: rest →
      exec .encode s = .next (s.failed 2 { index := 0, sym := some x })) ∧
    (s.text = [] → exec .encode s = .next { s with out := [0x08, 0x00], outValid := true }) ∧
    (s.input = [] → exec .decode s = .next (s.failed 4 { sub := 1 })) ∧
    (∀ h rest, s.ct = [] → s.input = h :: rest → h.toNat < 8 * rest.length →
      exec .decode s = .next (s.failed 4 { sub := 3, index := 0 }))

/-- R185: CODETABLE is `COUNT; BUILD; ASSIGN`. Of a non-empty text it leaves the text's table in `FT`, its code table in
`CT` and no tree; of the empty text BUILD raises, ASSIGN is ignored, and `CT` is unchanged. -/
def Obligations.CodetableDerivesTheTableOfTheText : Prop :=
  codetable = [.count, .build, .assign] ∧
  ∀ (p : Config.Params) (s : State), s.err = 0 →
    (s.text ≠ [] → ∃ (ct : CodeTable) (root : Node),
      let ft := (firstOccurrences s.text).map fun x => (x, s.text.count x)
      runEvents p (commands codetable) s = .next { s with ft := ft, ct := ct, tree := none } ∧
      exec .build { s with ft := ft } = .next { s with ft := ft, tree := some root } ∧
      exec .assign { s with tree := some root } = .next { s with ct := ct, tree := none }) ∧
    (s.text = [] → runEvents p (commands codetable) s = .next { s.failed 1 {} with ft := [], tree := none })

/-- R186: COMPRESS is `COUNT; BUILD; ASSIGN; ENCODE`. Of a non-empty text it leaves the payload of the text under its own
code table; of the empty text it ends with `EmptyInput`, no tree and no output. -/
def Obligations.CompressLeavesThePayload : Prop :=
  compress = [.count, .build, .assign, .encode] ∧
  ∀ (p : Config.Params) (s : State), s.err = 0 →
    (s.text ≠ [] → ∃ (t u : State) (codes : List Code),
      runEvents p (commands codetable) s = .next u ∧
      runEvents p (commands compress) s = .next t ∧ t.err = 0 ∧ t.outValid = true ∧
      t.ct = u.ct ∧ CodesOfText u.ct s.text codes ∧
      unpack t.out = bin8 (BitVec.ofNat 8 (8 - codes.flatten.length % 8)) ++ codes.flatten
        ++ List.replicate (8 - codes.flatten.length % 8) false) ∧
    (s.text = [] → runEvents p (commands compress) s = .next { s.failed 1 {} with ft := [], tree := none })

/-- R187: DECOMPRESS is the single command DECODE, on the `CT` currently in the block. -/
def Obligations.DecompressIsDecode : Prop :=
  decompress = [.decode] ∧
  ∀ (p : Config.Params) (s : State), runEvents p (commands decompress) s = exec .decode s

/-! ## Failures (60_exceptions.md) -/

/-- R206: a command word that raises leaves every item but these as it was: `ERR`, `ERR_INFO`, the emptied outputs with
their flags, and for BUILD the `TREE <- None` before the raise. -/
def Obligations.RaiseEmptiesOutputsAndKeepsTheRest : Prop :=
  ∀ (c : Byte) (s t : State), s.err = 0 → issue c s = .next t → t.err ≠ 0 →
    t.out = [] ∧ t.outValid = false ∧ t.dtext = [] ∧ t.dtextValid = false ∧
    t.text = s.text ∧ t.ft = s.ft ∧ t.ct = s.ct ∧ t.input = s.input ∧
    t.pending = s.pending ∧ t.answer = s.answer ∧
    ((decode c = .instr .build ∧ t.tree = none) ∨ (decode c ≠ .instr .build ∧ t.tree = s.tree)) ∧
    ∃ (k : FailKind) (info : ErrInfo), t.err = k.code ∧ t.errInfo = info ∧
      t = if decode c = .instr .build then { s.failed k.code info with tree := none } else s.failed k.code info

/-- R200, R218: which command raises which kind, on what cause, and what `ERR_INFO` then records; that it stays
`{0, 0, None}` where nothing is raised; and that host actions raise nothing. -/
def Obligations.FailureKindsCausesAndDetails : Prop :=
  (∀ (c : Byte) (s t : State), s.err = 0 → issue c s = .next t → t.err ≠ 0 →
    (t.err = 1 ∧ t.errInfo = {} ∧
      ((decode c = .instr .build ∧ s.ft = []) ∨ (decode c = .instr .assign ∧ s.tree = none))) ∨
    (t.err = 2 ∧ decode c = .instr .encode ∧
      ∃ i x, FirstUnknown s.ct s.text i x ∧ t.errInfo = { sub := 0, index := i, sym := some x }) ∨
    (t.err = 3 ∧ t.errInfo = {} ∧ decode c = .instr .decode ∧ ¬ CodeTable.Injective s.ct) ∨
    (t.err = 4 ∧ decode c = .instr .decode ∧
      ((s.input = [] ∧ t.errInfo = { sub := 1 }) ∨
       ∃ h rest, s.input = h :: rest ∧
        ((8 * rest.length < h.toNat ∧ t.errInfo = { sub := 2 }) ∨
         (h.toNat ≤ 8 * rest.length ∧ ∃ entries cand, GreedyParse s.ct (streamBody h rest) entries cand ∧ cand ≠ [] ∧
          t.errInfo = { sub := 3, index := (streamBody h rest).length - cand.length })))) ∨
    (t.err = 5 ∧ decode c = .reserved c ∧ t.errInfo = { sub := 0, index := c.toNat, sym := none })) ∧
  (∀ (c : Byte) (s t : State), s.err = 0 → s.errInfo = {} → issue c s = .next t → t.err = 0 → t.errInfo = {}) ∧
  (∀ (p : Config.Params) (w : HostWrite) (s t : State), hostWrite p w s = .next t →
    t.err = s.err ∧ t.errInfo = s.errInfo) ∧
  (∀ (x : ReadPort) (s : State), (hostRead x s).err = s.err ∧ (hostRead x s).errInfo = s.errInfo)

/-- R210, R208: while a failure is recorded nothing but CLRERR, RESET and the reset event changes `ERR` or `ERR_INFO`, so
that `ERR` keeps the first failure. -/
def Obligations.FirstFailureIsKept : Prop :=
  ∀ (p : Config.Params) (e : HostEvent) (s t : State), s.err ≠ 0 →
    e ≠ .cmd 0x0E → e ≠ .cmd 0x0F → e ≠ .resetEvent → applyEvent p e s = .next t →
    t.err = s.err ∧ t.errInfo = s.errInfo

/-- R211: re-issuing the failed command after CLRERR, with the same buffers, raises the same failure again. -/
def Obligations.RetryFailsTheSameWay : Prop :=
  ∀ (i : Instr) (s t u : State), s.err = 0 → exec i s = .next t → t.err ≠ 0 → exec .clrerr t = .next u →
    u.err = 0 ∧ exec i u = .next t

/-! ## Buffers, access and order (20_memory.md, 10_state.md) -/

/-- R63, the FRAME of every command word: what each leaves unchanged. In the rows that may raise, the first clause is
success and the second the raise. The RESET clause says of the model's own fields `pending` and `answer` that they are
kept: that is the model's choice (DESIGN CHOICE, log 9), not R63's. -/
def Obligations.CommandsTouchOnlyTheirBuffers : Prop :=
  ∀ (c : Byte) (s t : State), issue c s = .next t →
    (decode c = .instr .count → t = { s with ft := t.ft }) ∧
    (decode c = .instr .build → s.err = 0 →
      (s.ft ≠ [] ∧ t.tree ≠ none ∧ t = { s with tree := t.tree }) ∨
      (t.err ≠ 0 ∧ t = { s.failed t.err t.errInfo with tree := none })) ∧
    (decode c = .instr .assign → s.err = 0 →
      (t = { s with ct := t.ct, tree := none }) ∨ (t.err ≠ 0 ∧ t = s.failed t.err t.errInfo)) ∧
    (decode c = .instr .encode → s.err = 0 →
      (t = { s with out := t.out, outValid := true }) ∨ (t.err ≠ 0 ∧ t = s.failed t.err t.errInfo)) ∧
    (decode c = .instr .decode → s.err = 0 →
      (t = { s with dtext := t.dtext, dtextValid := true }) ∨ (t.err ≠ 0 ∧ t = s.failed t.err t.errInfo)) ∧
    (decode c = .instr .clrerr → t = { s with err := 0, errInfo := {} }) ∧
    (decode c = .instr .reset → t = { State.reset with pending := s.pending, answer := s.answer }) ∧
    ((∀ i, decode c ≠ .instr i) → s.err = 0 → t.err ≠ 0 ∧ t = s.failed t.err t.errInfo) ∧
    (s.err ≠ 0 → decode c ≠ .instr .clrerr → decode c ≠ .instr .reset → t = s)

/-- R63, R55: what a command writes depends on the buffers it reads and on nothing else of the block: on success the
buffers it writes, and on a raise `ERR`, `ERR_INFO` and the emptied outputs with their flags. CLRERR and RESET read
nothing (of RESET this is said of the items of R20 alone). -/
def Obligations.CommandsReadOnlyTheirOperands : Prop :=
  ∀ s s' t t' : State, s.err = 0 → s'.err = 0 →
    (exec .count s = .next t → exec .count s' = .next t' → s.text = s'.text → t.ft = t'.ft) ∧
    (exec .build s = .next t → exec .build s' = .next t' → s.ft = s'.ft → t.tree = t'.tree ∧ RaisedAlike t t') ∧
    (exec .assign s = .next t → exec .assign s' = .next t' → s.tree = s'.tree →
      t.tree = t'.tree ∧ (t.err = 0 → t.ct = t'.ct) ∧ RaisedAlike t t') ∧
    (exec .encode s = .next t → exec .encode s' = .next t' → s.text = s'.text → s.ct = s'.ct →
      t.out = t'.out ∧ t.outValid = t'.outValid ∧ RaisedAlike t t') ∧
    (exec .decode s = .next t → exec .decode s' = .next t' → s.input = s'.input → s.ct = s'.ct →
      t.dtext = t'.dtext ∧ t.dtextValid = t'.dtextValid ∧ RaisedAlike t t') ∧
    (exec .clrerr s = .next t → exec .clrerr s' = .next t' → t.err = t'.err ∧ t.errInfo = t'.errInfo) ∧
    (exec .reset s = .next t → exec .reset s' = .next t' → { t' with pending := t.pending, answer := t.answer } = t)

/-- R57: a successful COUNT, BUILD, ENCODE or DECODE issued again gives the same outputs again; a successful ASSIGN does
not: the second raises. -/
def Obligations.ReissueIsIdempotentButForAssign : Prop :=
  ∀ s t : State, s.err = 0 → t.err = 0 →
    (∀ i : Instr, i = .count ∨ i = .build ∨ i = .encode ∨ i = .decode → exec i s = .next t → exec i t = .next t) ∧
    (exec .assign s = .next t → ∃ u, exec .assign t = .next u ∧ u.err = 1)

/-- R77, R243: the code of a symbol of an alphabet of two or more is shorter than the alphabet is large; a compressed
text fits the worst case of R243; a decoded text has at most one symbol per body bit. -/
def Obligations.WorstCaseSizes : Prop :=
  (∀ (s t : State) (l r : Node), s.err = 0 → s.tree = some (.internal l r) → exec .assign s = .next t →
    ∀ e ∈ t.ct, e.2.length ≤ (Node.internal l r).leaves.length - 1) ∧
  (∀ (p : Config.Params) (s t : State), s.err = 0 → s.text ≠ [] → runEvents p (commands compress) s = .next t →
    t.out.length ≤ 2 + s.text.length * max 1 (t.ft.length - 1) / 8) ∧
  (∀ s t : State, s.err = 0 → exec .decode s = .next t → t.err = 0 → t.dtext.length ≤ 8 * (s.input.length - 1))

/-- 10_state.md R32: `STATUS`, bit by bit, in every state, and its value after reset. -/
def Obligations.StatusBits : Prop :=
  (∀ s : State,
    ((status s).getLsbD 0 = true ↔ s.err ≠ 0) ∧
    (status s).getLsbD 1 = s.outValid ∧
    (status s).getLsbD 2 = s.dtextValid ∧
    ((status s).getLsbD 3 = true ↔ s.tree ≠ none) ∧
    (status s).extractLsb 7 4 = 0) ∧
  status State.reset = 0x00

/-! ## Host actions (45_control_and_host.md) -/

/-- R188 to R191, R193 (c), (d), R7: a host write whose value is of the buffer's type, over the symbols of the instance,
and within its bound replaces that buffer and nothing else; any other is refused and has no next state. The names of the
refusals, and that a `CT` with a repeated key is outside its type, are the model's reading (DEDUCED and DESIGN CHOICE,
log 8); that HOST WRITE IN OUT is one element is the model's reading too (DEDUCED, log 13); which numbers are symbols of
an instance is log 1. -/
def Obligations.HostWritesReplaceOneBufferOrAreRefused : Prop :=
  ∀ (p : Config.Params) (s : State),
    (∀ v, allSymbols p.symbolCount v = true → withinBound p.maxTextLen v.length = true →
      hostWrite p (.text v) s = .next { s with text := v }) ∧
    (∀ v, allSymbols p.symbolCount v = true → withinBound p.maxTextLen v.length = false →
      hostWrite p (.text v) s = .refused .textOverBound) ∧
    (∀ v, allSymbols p.symbolCount v = false → hostWrite p (.text v) s = .refused .textNotSymbol) ∧
    (∀ v, allSymbols p.symbolCount (v.map Prod.fst) = true → FreqTable.WellFormed v →
      withinBound p.maxSyms v.length = true → hostWrite p (.ft v) s = .next { s with ft := v }) ∧
    (∀ v, ¬ (allSymbols p.symbolCount (v.map Prod.fst) = true ∧ FreqTable.WellFormed v ∧
      withinBound p.maxSyms v.length = true) → ∃ r, hostWrite p (.ft v) s = .refused r) ∧
    (∀ v, allSymbols p.symbolCount (v.map Prod.fst) = true → CodeTable.WellFormed v →
      withinBound p.maxSyms v.length = true → hostWrite p (.ct v) s = .next { s with ct := v }) ∧
    (∀ v, ¬ (allSymbols p.symbolCount (v.map Prod.fst) = true ∧ CodeTable.WellFormed v ∧
      withinBound p.maxSyms v.length = true) → ∃ r, hostWrite p (.ct v) s = .refused r) ∧
    (∀ v, withinBound p.maxInLen v.length = true → hostWrite p (.input v) s = .next { s with input := v }) ∧
    (∀ v, withinBound p.maxInLen v.length = false → hostWrite p (.input v) s = .refused .inputOverBound) ∧
    hostWrite p .inputFromOut s = hostWrite p (.input s.out) s

/-- R192: a host read returns the current value, whole, and changes no item of the block. (That the value stands in
`answer` is the model's choice, log 5.) -/
def Obligations.HostReadsReturnTheCurrentValue : Prop :=
  ∀ (p : Config.Params) (s : State),
    applyEvent p (.read .text) s = .next { s with answer := some (.symbols s.text) } ∧
    applyEvent p (.read .ft) s = .next { s with answer := some (.table s.ft) } ∧
    applyEvent p (.read .tree) s = .next { s with answer := some (.tree s.tree) } ∧
    applyEvent p (.read .ct) s = .next { s with answer := some (.codes s.ct) } ∧
    applyEvent p (.read .input) s = .next { s with answer := some (.bytes s.input) } ∧
    applyEvent p (.read .out) s = .next { s with answer := some (.bytes s.out) } ∧
    applyEvent p (.read .dtext) s = .next { s with answer := some (.symbols s.dtext) } ∧
    applyEvent p (.read .status) s = .next { s with answer := some (.status (status s)) } ∧
    applyEvent p (.read .err) s = .next { s with answer := some (.err s.err) } ∧
    applyEvent p (.read .errInfo) s = .next { s with answer := some (.info s.errInfo) }

/-! ## The step and the run (70_reset_and_hazards.md) -/

/-- R31, R34: when the host's next action is a write of a command word to `CMD`, the step is the meaning of the decoded
command, the action being used up; a word that names no command is the illegal command of R182; and `withFetchWord`
places a command word so. (`pending` is the model's own, log 3.) -/
def Obligations.StepRunsTheDecodedCommand : Prop :=
  (∀ (s : State) (c : Byte) (rest : List HostEvent) (i : Instr), s.pending = .cmd c :: rest → decode c = .instr i →
    step s = exec i { s with pending := rest }) ∧
  (∀ (s : State) (c : Byte) (rest : List HostEvent), s.pending = .cmd c :: rest → decode c = .reserved c →
    step s = .next (illegalCommand c { s with pending := rest })) ∧
  (∀ (s : State) (w : Nat) (i : Instr), decodeTableWord 8 w = some i → step (s.withFetchWord 8 w) = exec i s)

/-- R56, R60: each other action of the host is one transition of the step. The model's choices in it (DESIGN CHOICE): the
host's actions stand in `pending` and a step uses up the first (log 3); while the host does nothing the block stays as it
is (log 4); what a read returns stands in `answer` (log 5); a reset keeps `answer` and the rest of `pending` (log 9). -/
def Obligations.StepTakesTheNextHostAction : Prop :=
  (∀ (p : Config.Params) (s : State) (w : HostWrite) (rest : List HostEvent), s.pending = .write w :: rest →
    stepWith p s = hostWrite p w { s with pending := rest }) ∧
  (∀ (p : Config.Params) (s : State) (x : ReadPort) (rest : List HostEvent), s.pending = .read x :: rest →
    stepWith p s = .next { s with pending := rest, answer := some (hostValue x s) }) ∧
  (∀ (p : Config.Params) (s : State) (rest : List HostEvent), s.pending = .resetEvent :: rest →
    stepWith p s = .next { State.reset with pending := rest, answer := s.answer }) ∧
  (∀ (p : Config.Params) (s : State), s.pending = [] → stepWith p s = .next s)

/-- R244: each element of a run has exactly one successor state (a refused host write is no element); nothing faults; and
a run is its elements applied one after another, which the step does. -/
def Obligations.RunIsTheStepIterated : Prop :=
  (∀ (p : Config.Params) (e : HostEvent) (s : State), (∀ w, e = .write w → writeRefusal p s.out w = none) →
    ∃ t, applyEvent p e s = .next t) ∧
  (∀ (p : Config.Params) (s : State) (f : Fault), stepWith p s ≠ .fault f) ∧
  (∀ (es : List HostEvent) (s : State),
    Host.Core.run Sys2Proof.core es.length { s with pending := es } =
      runEvents Config.unbounded es { s with pending := [] })

/-- The invariant of Safety.lean (R21, R22, R24 to R30, R37, R206) is kept by every step of every instance: the items
hold symbols of the instance (R7), the tables keep their type, invalid outputs are empty, a valid `OUT` is a payload, no output is valid beside a failure, and `ERR`
with `ERR_INFO` is one of the rows of R200. -/
def Obligations.StepKeepsTheInvariant : Prop :=
  ∀ (p : Config.Params) (s t : State), s.Inv p → stepWith p s = .next t → t.Inv p

/-- R230: the state after reset holds every item's reset value, and meets the invariant. -/
def Obligations.ResetMeetsTheInvariant : Prop :=
  ∀ p : Config.Params, State.reset.Inv p

/-- 00_scope.md R7: "nothing but equality of symbols is ever used": renaming the symbols of the block by any injective map
commutes with every command. -/
def Obligations.OnlyEqualityOfSymbolsIsUsed : Prop :=
  ∀ f : Symbol → Symbol, Function.Injective f →
    ∀ (i : Instr) (s : State), exec i (s.rename f) = renameOutcome f (exec i s)
end

