-- ==== Sys2Proof/Laws/Codes.lean ====
section
/-! SUPPORT. The codes of a tree (spec 42_code_assigner.md R130 to R136): the paths to its leaves, none a proper
  beginning of another. -/

namespace Sys2Proof.Machine

/-- The walk lists the leaves left to right (R131). -/
theorem walk_keys (n : Node) (path : BitSeq) : (walk n path).map Prod.fst = n.leaves := by
  induction n generalizing path with
  | leaf s => rfl
  | internal l r hl hr => simp [walk, Node.leaves, hl, hr]

/-- The walk lists exactly the paths to the leaves, after its starting path (R130). -/
theorem walk_mem (n : Node) (path : BitSeq) (x : Symbol) (c : Code) :
    (x, c) ∈ walk n path ↔ ∃ d, c = path ++ d ∧ n.follow d = some (.leaf x) := by
  induction n generalizing path c with
  | leaf s =>
    simp only [walk, List.mem_singleton, Prod.mk.injEq]
    constructor
    · rintro ⟨rfl, rfl⟩; exact ⟨[], by simp, rfl⟩
    · rintro ⟨d, rfl, h⟩
      cases d with
      | nil => simp [Node.follow] at h; simp [h]
      | cons => simp [Node.follow] at h
  | internal l r hl hr =>
    simp only [walk, List.mem_append, hl, hr]
    constructor
    · rintro (⟨d, rfl, h⟩ | ⟨d, rfl, h⟩)
      · exact ⟨false :: d, by simp, by simpa [Node.follow] using h⟩
      · exact ⟨true :: d, by simp, by simpa [Node.follow] using h⟩
    · rintro ⟨d, rfl, h⟩
      cases d with
      | nil => simp [Node.follow] at h
      | cons b d =>
        cases b
        · exact .inl ⟨d, by simp, by simpa [Node.follow] using h⟩
        · exact .inr ⟨d, by simp, by simpa [Node.follow] using h⟩

/-- A path to a leaf goes on to no other node. -/
theorem follow_prefix {n m : Node} {c d : BitSeq} {x : Symbol} (h1 : n.follow c = some (.leaf x)) (h2 :
    n.follow d = some m)
    (hp : c <+: d) : c = d := by
  induction c generalizing n d with
  | nil =>
    simp only [Node.follow, Option.some.injEq] at h1
    subst h1
    cases d with
    | nil => rfl
    | cons => simp [Node.follow] at h2
  | cons b c ih =>
    obtain ⟨t, rfl⟩ := hp
    cases n with
    | leaf => simp [Node.follow] at h1
    | internal l r =>
      simp only [List.cons_append, Node.follow] at h1 h2
      congr 1
      cases b <;> exact ih (by simpa using h1) (by simpa using h2) ⟨t, rfl⟩

/-- The code table of a tree lists its leaves left to right. -/
theorem codesOf_keys (n : Node) : (codesOf n).map Prod.fst = n.leaves := by
  cases n with
  | leaf => rfl
  | internal l r => exact walk_keys _ _

/-- Of an internal root the code table lists exactly the paths to the leaves. -/
theorem codesOf_internal_mem (l r : Node) (x : Symbol) (c : Code) :
    (x, c) ∈ codesOf (.internal l r) ↔ (Node.internal l r).follow c = some (.leaf x) := by
  rw [codesOf, walk_mem]; simp

/-- No code of a tree is empty (R135 (b)). -/
theorem codesOf_nonempty (n : Node) : CodeTable.CodesNonEmpty (codesOf n) := by
  rintro ⟨x, c⟩ h rfl
  cases n with
  | leaf => simp [codesOf] at h
  | internal l r => rw [codesOf_internal_mem] at h; simp [Node.follow] at h

/-- No code of a tree begins another entry's code. -/
theorem codesOf_entries_prefix (n : Node) {e f : Symbol × Code} (he : e ∈ codesOf n) (hf : f ∈ codesOf n)
    (hp : e.2 <+: f.2) : e = f := by
  cases n with
  | leaf s => simp [codesOf] at he hf; rw [he, hf]
  | internal l r =>
    obtain ⟨x, c⟩ := e; obtain ⟨y, d⟩ := f
    rw [codesOf_internal_mem] at he hf
    have := follow_prefix he hf hp
    subst this
    rw [he] at hf
    simp at hf
    simp [hf]

/-- R135 (c), for the table of any tree. -/
theorem codesOf_prefixFree (n : Node) : CodeTable.PrefixFree (codesOf n) := by
  intro e he f hf hne hp
  exact hne (congrArg Prod.fst (codesOf_entries_prefix n he hf hp))

/-- Codes none of which begins another are distinct. -/
theorem prefixFree_injective {ct : CodeTable} (h : CodeTable.PrefixFree ct) : CodeTable.Injective ct := by
  intro e he f hf hc
  by_contra hn
  exact h e he f hf hn (hc ▸ List.prefix_refl _)

/-- ASSIGN writes a table of the type of `CT` (10_state.md R20), from a tree with distinct leaves. -/
theorem codesOf_wf {n : Node} (h : n.leaves.Nodup) : CodeTable.WellFormed (codesOf n) :=
  ⟨by rw [CodeTable.KeysDistinct, codesOf_keys]; exact h, codesOf_nonempty n⟩

end Sys2Proof.Machine
end

