-- ==== Sys2Proof/Laws/Counter.lean ====
section
/-! SUPPORT. What the loop of COUNT leaves (spec 40_frequency_counter.md R100). -/

namespace Sys2Proof.Machine

/-- One turn of R100 on a table of counts. -/
theorem countSymbol_map (text : List Symbol) (s : Symbol) (c : Symbol → Nat) (h0 : s ∉ text → c s = 0) (hnd :
    text.Nodup) :
    countSymbol (text.map fun x => (x, c x)) s =
      (if s ∈ text then text else text ++ [s]).map fun x => (x, if x = s then c x + 1 else c x) := by
  induction text with
  | nil => simp [countSymbol, h0]
  | cons t text ih =>
    simp only [List.map_cons, countSymbol]
    have hnd' := List.nodup_cons.1 hnd
    by_cases h : t = s
    · subst h
      simp only [if_true, List.mem_cons, true_or, List.map_cons]
      congr 1
      apply List.map_congr_left
      intro x hx
      have : x ≠ t := fun e => hnd'.1 (e ▸ hx)
      simp [this]
    · rw [if_neg h, ih (fun hn => h0 (by simp [hn, Ne.symm h])) hnd'.2]
      by_cases hm : s ∈ text
      · simp [hm, h]
      · simp [hm, h, Ne.symm h]

/-- The first occurrences are of the symbols of the text. -/
theorem firstOccurrences_mem (text : List Symbol) (x : Symbol) : x ∈ firstOccurrences text ↔ x ∈ text := by
  induction text with
  | nil => simp [firstOccurrences]
  | cons s text ih => simp only [firstOccurrences, List.mem_cons, List.mem_filter, ih]; by_cases h : x = s <;> simp [h]

/-- The first occurrences are distinct. -/
theorem firstOccurrences_nodup (text : List Symbol) : (firstOccurrences text).Nodup := by
  induction text with
  | nil => simp [firstOccurrences]
  | cons s text ih => simp [firstOccurrences, ih.filter]

/-- A symbol at the end of a text is a first occurrence exactly if the text did not have it. -/
theorem firstOccurrences_concat (text : List Symbol) (s : Symbol) :
    firstOccurrences (text ++ [s]) = if s ∈ text then firstOccurrences text else firstOccurrences text ++ [s] := by
  induction text with
  | nil => simp [firstOccurrences]
  | cons t text ih =>
    simp only [List.cons_append, firstOccurrences, ih]
    by_cases h : s = t
    · subst h; split <;> simp
    · by_cases hm : s ∈ text
      · simp [hm]
      · simp [hm, h]

/-- R100, without the loop. -/
theorem countText_eq (text : List Symbol) :
    countText text = (firstOccurrences text).map fun x => (x, text.count x) := by
  induction text using List.reverseRecOn with
  | nil => rfl
  | append_singleton text s ih =>
    have hm := firstOccurrences_mem text s
    rw [countText, List.foldl_append, List.foldl_cons, List.foldl_nil, ← countText, ih,
      countSymbol_map _ s (fun x => text.count x) (fun h => List.count_eq_zero.2 fun h' => h (hm.2 h'))
        (firstOccurrences_nodup _),
      firstOccurrences_concat]
    simp only [hm]
    split <;> (apply List.map_congr_left; intro x _; by_cases hx : x = s <;> simp [hx, Ne.symm])

/-- COUNT writes a table of the type of `FT`: distinct symbols (10_state.md R20). -/
theorem countText_wf (text : List Symbol) : FreqTable.WellFormed (countText text) := by
  simpa [FreqTable.WellFormed, countText_eq, Function.comp_def] using firstOccurrences_nodup text

end Sys2Proof.Machine
end

