-- ==== Sys2Proof/Laws/State.lean ====
section
/-! SUPPORT. What each write of a state item leaves in each item, and the same of a raise, the return from it, and the
reset of every item. -/

namespace Sys2Proof.Machine

section setText
variable (s : State) (v : List Symbol)
@[simp] theorem State.setText_text : (s.setText v).text = v := rfl
@[simp] theorem State.setText_ft : (s.setText v).ft = s.ft := rfl
@[simp] theorem State.setText_tree : (s.setText v).tree = s.tree := rfl
@[simp] theorem State.setText_ct : (s.setText v).ct = s.ct := rfl
@[simp] theorem State.setText_input : (s.setText v).input = s.input := rfl
@[simp] theorem State.setText_out : (s.setText v).out = s.out := rfl
@[simp] theorem State.setText_dtext : (s.setText v).dtext = s.dtext := rfl
@[simp] theorem State.setText_outValid : (s.setText v).outValid = s.outValid := rfl
@[simp] theorem State.setText_dtextValid : (s.setText v).dtextValid = s.dtextValid := rfl
@[simp] theorem State.setText_err : (s.setText v).err = s.err := rfl
@[simp] theorem State.setText_errInfo : (s.setText v).errInfo = s.errInfo := rfl
@[simp] theorem State.setText_pending : (s.setText v).pending = s.pending := rfl
@[simp] theorem State.setText_answer : (s.setText v).answer = s.answer := rfl
end setText

section setFt
variable (s : State) (v : FreqTable)
@[simp] theorem State.setFt_text : (s.setFt v).text = s.text := rfl
@[simp] theorem State.setFt_ft : (s.setFt v).ft = v := rfl
@[simp] theorem State.setFt_tree : (s.setFt v).tree = s.tree := rfl
@[simp] theorem State.setFt_ct : (s.setFt v).ct = s.ct := rfl
@[simp] theorem State.setFt_input : (s.setFt v).input = s.input := rfl
@[simp] theorem State.setFt_out : (s.setFt v).out = s.out := rfl
@[simp] theorem State.setFt_dtext : (s.setFt v).dtext = s.dtext := rfl
@[simp] theorem State.setFt_outValid : (s.setFt v).outValid = s.outValid := rfl
@[simp] theorem State.setFt_dtextValid : (s.setFt v).dtextValid = s.dtextValid := rfl
@[simp] theorem State.setFt_err : (s.setFt v).err = s.err := rfl
@[simp] theorem State.setFt_errInfo : (s.setFt v).errInfo = s.errInfo := rfl
@[simp] theorem State.setFt_pending : (s.setFt v).pending = s.pending := rfl
@[simp] theorem State.setFt_answer : (s.setFt v).answer = s.answer := rfl
end setFt

section setTree
variable (s : State) (v : Option Node)
@[simp] theorem State.setTree_text : (s.setTree v).text = s.text := rfl
@[simp] theorem State.setTree_ft : (s.setTree v).ft = s.ft := rfl
@[simp] theorem State.setTree_tree : (s.setTree v).tree = v := rfl
@[simp] theorem State.setTree_ct : (s.setTree v).ct = s.ct := rfl
@[simp] theorem State.setTree_input : (s.setTree v).input = s.input := rfl
@[simp] theorem State.setTree_out : (s.setTree v).out = s.out := rfl
@[simp] theorem State.setTree_dtext : (s.setTree v).dtext = s.dtext := rfl
@[simp] theorem State.setTree_outValid : (s.setTree v).outValid = s.outValid := rfl
@[simp] theorem State.setTree_dtextValid : (s.setTree v).dtextValid = s.dtextValid := rfl
@[simp] theorem State.setTree_err : (s.setTree v).err = s.err := rfl
@[simp] theorem State.setTree_errInfo : (s.setTree v).errInfo = s.errInfo := rfl
@[simp] theorem State.setTree_pending : (s.setTree v).pending = s.pending := rfl
@[simp] theorem State.setTree_answer : (s.setTree v).answer = s.answer := rfl
end setTree

section setCt
variable (s : State) (v : CodeTable)
@[simp] theorem State.setCt_text : (s.setCt v).text = s.text := rfl
@[simp] theorem State.setCt_ft : (s.setCt v).ft = s.ft := rfl
@[simp] theorem State.setCt_tree : (s.setCt v).tree = s.tree := rfl
@[simp] theorem State.setCt_ct : (s.setCt v).ct = v := rfl
@[simp] theorem State.setCt_input : (s.setCt v).input = s.input := rfl
@[simp] theorem State.setCt_out : (s.setCt v).out = s.out := rfl
@[simp] theorem State.setCt_dtext : (s.setCt v).dtext = s.dtext := rfl
@[simp] theorem State.setCt_outValid : (s.setCt v).outValid = s.outValid := rfl
@[simp] theorem State.setCt_dtextValid : (s.setCt v).dtextValid = s.dtextValid := rfl
@[simp] theorem State.setCt_err : (s.setCt v).err = s.err := rfl
@[simp] theorem State.setCt_errInfo : (s.setCt v).errInfo = s.errInfo := rfl
@[simp] theorem State.setCt_pending : (s.setCt v).pending = s.pending := rfl
@[simp] theorem State.setCt_answer : (s.setCt v).answer = s.answer := rfl
end setCt

section setInput
variable (s : State) (v : List Byte)
@[simp] theorem State.setInput_text : (s.setInput v).text = s.text := rfl
@[simp] theorem State.setInput_ft : (s.setInput v).ft = s.ft := rfl
@[simp] theorem State.setInput_tree : (s.setInput v).tree = s.tree := rfl
@[simp] theorem State.setInput_ct : (s.setInput v).ct = s.ct := rfl
@[simp] theorem State.setInput_input : (s.setInput v).input = v := rfl
@[simp] theorem State.setInput_out : (s.setInput v).out = s.out := rfl
@[simp] theorem State.setInput_dtext : (s.setInput v).dtext = s.dtext := rfl
@[simp] theorem State.setInput_outValid : (s.setInput v).outValid = s.outValid := rfl
@[simp] theorem State.setInput_dtextValid : (s.setInput v).dtextValid = s.dtextValid := rfl
@[simp] theorem State.setInput_err : (s.setInput v).err = s.err := rfl
@[simp] theorem State.setInput_errInfo : (s.setInput v).errInfo = s.errInfo := rfl
@[simp] theorem State.setInput_pending : (s.setInput v).pending = s.pending := rfl
@[simp] theorem State.setInput_answer : (s.setInput v).answer = s.answer := rfl
end setInput

section setOut
variable (s : State) (v : List Byte) (b : Bool)
@[simp] theorem State.setOut_text : (s.setOut v b).text = s.text := rfl
@[simp] theorem State.setOut_ft : (s.setOut v b).ft = s.ft := rfl
@[simp] theorem State.setOut_tree : (s.setOut v b).tree = s.tree := rfl
@[simp] theorem State.setOut_ct : (s.setOut v b).ct = s.ct := rfl
@[simp] theorem State.setOut_input : (s.setOut v b).input = s.input := rfl
@[simp] theorem State.setOut_out : (s.setOut v b).out = v := rfl
@[simp] theorem State.setOut_dtext : (s.setOut v b).dtext = s.dtext := rfl
@[simp] theorem State.setOut_outValid : (s.setOut v b).outValid = b := rfl
@[simp] theorem State.setOut_dtextValid : (s.setOut v b).dtextValid = s.dtextValid := rfl
@[simp] theorem State.setOut_err : (s.setOut v b).err = s.err := rfl
@[simp] theorem State.setOut_errInfo : (s.setOut v b).errInfo = s.errInfo := rfl
@[simp] theorem State.setOut_pending : (s.setOut v b).pending = s.pending := rfl
@[simp] theorem State.setOut_answer : (s.setOut v b).answer = s.answer := rfl
end setOut

section setDtext
variable (s : State) (v : List Symbol) (b : Bool)
@[simp] theorem State.setDtext_text : (s.setDtext v b).text = s.text := rfl
@[simp] theorem State.setDtext_ft : (s.setDtext v b).ft = s.ft := rfl
@[simp] theorem State.setDtext_tree : (s.setDtext v b).tree = s.tree := rfl
@[simp] theorem State.setDtext_ct : (s.setDtext v b).ct = s.ct := rfl
@[simp] theorem State.setDtext_input : (s.setDtext v b).input = s.input := rfl
@[simp] theorem State.setDtext_out : (s.setDtext v b).out = s.out := rfl
@[simp] theorem State.setDtext_dtext : (s.setDtext v b).dtext = v := rfl
@[simp] theorem State.setDtext_outValid : (s.setDtext v b).outValid = s.outValid := rfl
@[simp] theorem State.setDtext_dtextValid : (s.setDtext v b).dtextValid = b := rfl
@[simp] theorem State.setDtext_err : (s.setDtext v b).err = s.err := rfl
@[simp] theorem State.setDtext_errInfo : (s.setDtext v b).errInfo = s.errInfo := rfl
@[simp] theorem State.setDtext_pending : (s.setDtext v b).pending = s.pending := rfl
@[simp] theorem State.setDtext_answer : (s.setDtext v b).answer = s.answer := rfl
end setDtext

section setErr
variable (s : State) (c : BitVec 3) (i : ErrInfo)
@[simp] theorem State.setErr_text : (s.setErr c i).text = s.text := rfl
@[simp] theorem State.setErr_ft : (s.setErr c i).ft = s.ft := rfl
@[simp] theorem State.setErr_tree : (s.setErr c i).tree = s.tree := rfl
@[simp] theorem State.setErr_ct : (s.setErr c i).ct = s.ct := rfl
@[simp] theorem State.setErr_input : (s.setErr c i).input = s.input := rfl
@[simp] theorem State.setErr_out : (s.setErr c i).out = s.out := rfl
@[simp] theorem State.setErr_dtext : (s.setErr c i).dtext = s.dtext := rfl
@[simp] theorem State.setErr_outValid : (s.setErr c i).outValid = s.outValid := rfl
@[simp] theorem State.setErr_dtextValid : (s.setErr c i).dtextValid = s.dtextValid := rfl
@[simp] theorem State.setErr_err : (s.setErr c i).err = c := rfl
@[simp] theorem State.setErr_errInfo : (s.setErr c i).errInfo = i := rfl
@[simp] theorem State.setErr_pending : (s.setErr c i).pending = s.pending := rfl
@[simp] theorem State.setErr_answer : (s.setErr c i).answer = s.answer := rfl
end setErr

section setPending
variable (s : State) (v : List HostEvent)
@[simp] theorem State.setPending_text : (s.setPending v).text = s.text := rfl
@[simp] theorem State.setPending_ft : (s.setPending v).ft = s.ft := rfl
@[simp] theorem State.setPending_tree : (s.setPending v).tree = s.tree := rfl
@[simp] theorem State.setPending_ct : (s.setPending v).ct = s.ct := rfl
@[simp] theorem State.setPending_input : (s.setPending v).input = s.input := rfl
@[simp] theorem State.setPending_out : (s.setPending v).out = s.out := rfl
@[simp] theorem State.setPending_dtext : (s.setPending v).dtext = s.dtext := rfl
@[simp] theorem State.setPending_outValid : (s.setPending v).outValid = s.outValid := rfl
@[simp] theorem State.setPending_dtextValid : (s.setPending v).dtextValid = s.dtextValid := rfl
@[simp] theorem State.setPending_err : (s.setPending v).err = s.err := rfl
@[simp] theorem State.setPending_errInfo : (s.setPending v).errInfo = s.errInfo := rfl
@[simp] theorem State.setPending_pending : (s.setPending v).pending = v := rfl
@[simp] theorem State.setPending_answer : (s.setPending v).answer = s.answer := rfl
end setPending

section setAnswer
variable (s : State) (v : Option HostValue)
@[simp] theorem State.setAnswer_text : (s.setAnswer v).text = s.text := rfl
@[simp] theorem State.setAnswer_ft : (s.setAnswer v).ft = s.ft := rfl
@[simp] theorem State.setAnswer_tree : (s.setAnswer v).tree = s.tree := rfl
@[simp] theorem State.setAnswer_ct : (s.setAnswer v).ct = s.ct := rfl
@[simp] theorem State.setAnswer_input : (s.setAnswer v).input = s.input := rfl
@[simp] theorem State.setAnswer_out : (s.setAnswer v).out = s.out := rfl
@[simp] theorem State.setAnswer_dtext : (s.setAnswer v).dtext = s.dtext := rfl
@[simp] theorem State.setAnswer_outValid : (s.setAnswer v).outValid = s.outValid := rfl
@[simp] theorem State.setAnswer_dtextValid : (s.setAnswer v).dtextValid = s.dtextValid := rfl
@[simp] theorem State.setAnswer_err : (s.setAnswer v).err = s.err := rfl
@[simp] theorem State.setAnswer_errInfo : (s.setAnswer v).errInfo = s.errInfo := rfl
@[simp] theorem State.setAnswer_pending : (s.setAnswer v).pending = s.pending := rfl
@[simp] theorem State.setAnswer_answer : (s.setAnswer v).answer = v := rfl
end setAnswer

@[simp] theorem raise_text (k : FailKind) (i : ErrInfo) (s : State) : (raise k i s).text = s.text := rfl
@[simp] theorem raise_ft (k : FailKind) (i : ErrInfo) (s : State) : (raise k i s).ft = s.ft := rfl
@[simp] theorem raise_tree (k : FailKind) (i : ErrInfo) (s : State) : (raise k i s).tree = s.tree := rfl
@[simp] theorem raise_ct (k : FailKind) (i : ErrInfo) (s : State) : (raise k i s).ct = s.ct := rfl
@[simp] theorem raise_input (k : FailKind) (i : ErrInfo) (s : State) : (raise k i s).input = s.input := rfl
@[simp] theorem raise_out (k : FailKind) (i : ErrInfo) (s : State) : (raise k i s).out = [] := rfl
@[simp] theorem raise_dtext (k : FailKind) (i : ErrInfo) (s : State) : (raise k i s).dtext = [] := rfl
@[simp] theorem raise_outValid (k : FailKind) (i : ErrInfo) (s : State) : (raise k i s).outValid = false := rfl
@[simp] theorem raise_dtextValid (k : FailKind) (i : ErrInfo) (s : State) : (raise k i s).dtextValid = false := rfl
@[simp] theorem raise_err (k : FailKind) (i : ErrInfo) (s : State) : (raise k i s).err = k.code := rfl
@[simp] theorem raise_errInfo (k : FailKind) (i : ErrInfo) (s : State) : (raise k i s).errInfo = i := rfl
@[simp] theorem raise_pending (k : FailKind) (i : ErrInfo) (s : State) : (raise k i s).pending = s.pending := rfl
@[simp] theorem raise_answer (k : FailKind) (i : ErrInfo) (s : State) : (raise k i s).answer = s.answer := rfl

@[simp] theorem clearError_text (s : State) : (clearError s).text = s.text := rfl
@[simp] theorem clearError_ft (s : State) : (clearError s).ft = s.ft := rfl
@[simp] theorem clearError_tree (s : State) : (clearError s).tree = s.tree := rfl
@[simp] theorem clearError_ct (s : State) : (clearError s).ct = s.ct := rfl
@[simp] theorem clearError_input (s : State) : (clearError s).input = s.input := rfl
@[simp] theorem clearError_out (s : State) : (clearError s).out = s.out := rfl
@[simp] theorem clearError_dtext (s : State) : (clearError s).dtext = s.dtext := rfl
@[simp] theorem clearError_outValid (s : State) : (clearError s).outValid = s.outValid := rfl
@[simp] theorem clearError_dtextValid (s : State) : (clearError s).dtextValid = s.dtextValid := rfl
@[simp] theorem clearError_err (s : State) : (clearError s).err = 0 := rfl
@[simp] theorem clearError_errInfo (s : State) : (clearError s).errInfo = {} := rfl
@[simp] theorem clearError_pending (s : State) : (clearError s).pending = s.pending := rfl
@[simp] theorem clearError_answer (s : State) : (clearError s).answer = s.answer := rfl

@[simp] theorem resetItems_text (s : State) : (resetItems s).text = [] := rfl
@[simp] theorem resetItems_ft (s : State) : (resetItems s).ft = [] := rfl
@[simp] theorem resetItems_tree (s : State) : (resetItems s).tree = none := rfl
@[simp] theorem resetItems_ct (s : State) : (resetItems s).ct = [] := rfl
@[simp] theorem resetItems_input (s : State) : (resetItems s).input = [] := rfl
@[simp] theorem resetItems_out (s : State) : (resetItems s).out = [] := rfl
@[simp] theorem resetItems_dtext (s : State) : (resetItems s).dtext = [] := rfl
@[simp] theorem resetItems_outValid (s : State) : (resetItems s).outValid = false := rfl
@[simp] theorem resetItems_dtextValid (s : State) : (resetItems s).dtextValid = false := rfl
@[simp] theorem resetItems_err (s : State) : (resetItems s).err = 0 := rfl
@[simp] theorem resetItems_errInfo (s : State) : (resetItems s).errInfo = {} := rfl
@[simp] theorem resetItems_pending (s : State) : (resetItems s).pending = s.pending := rfl
@[simp] theorem resetItems_answer (s : State) : (resetItems s).answer = s.answer := rfl

@[simp] theorem State.failed_text (s : State) (c : BitVec 3) (i : ErrInfo) : (s.failed c i).text = s.text := rfl
@[simp] theorem State.failed_ft (s : State) (c : BitVec 3) (i : ErrInfo) : (s.failed c i).ft = s.ft := rfl
@[simp] theorem State.failed_tree (s : State) (c : BitVec 3) (i : ErrInfo) : (s.failed c i).tree = s.tree := rfl
@[simp] theorem State.failed_ct (s : State) (c : BitVec 3) (i : ErrInfo) : (s.failed c i).ct = s.ct := rfl
@[simp] theorem State.failed_input (s : State) (c : BitVec 3) (i : ErrInfo) : (s.failed c i).input = s.input := rfl
@[simp] theorem State.failed_out (s : State) (c : BitVec 3) (i : ErrInfo) : (s.failed c i).out = [] := rfl
@[simp] theorem State.failed_dtext (s : State) (c : BitVec 3) (i : ErrInfo) : (s.failed c i).dtext = [] := rfl
@[simp] theorem State.failed_outValid (s : State) (c : BitVec 3) (i : ErrInfo) : (s.failed c i).outValid = false := rfl
@[simp] theorem State.failed_dtextValid (s : State) (c : BitVec 3) (i : ErrInfo) : (s.failed c i).dtextValid = false := rfl
@[simp] theorem State.failed_err (s : State) (c : BitVec 3) (i : ErrInfo) : (s.failed c i).err = c := rfl
@[simp] theorem State.failed_errInfo (s : State) (c : BitVec 3) (i : ErrInfo) : (s.failed c i).errInfo = i := rfl
@[simp] theorem State.failed_pending (s : State) (c : BitVec 3) (i : ErrInfo) : (s.failed c i).pending = s.pending := rfl
@[simp] theorem State.failed_answer (s : State) (c : BitVec 3) (i : ErrInfo) : (s.failed c i).answer = s.answer := rfl

/-- A raise, field by field (R206). -/
theorem raise_eq_failed (k : FailKind) (i : ErrInfo) (s : State) : raise k i s = s.failed k.code i := rfl

/-- No failure kind has the code 0, so a raise is always seen in `ERR`. -/
@[simp] theorem FailKind.code_ne_zero (k : FailKind) : k.code ≠ 0#3 := by cases k <;> decide

/-- The gate lets a command through exactly while no failure is recorded (R183). -/
theorem gate_of_ok {s : State} (f : State → State) (h : s.err = 0) : gate f s = f s := if_pos h

theorem gate_of_failed {s : State} (f : State → State) (h : s.err ≠ 0) : gate f s = s := if_neg h

/-- What a gated command can do. -/
theorem gate_cases (f : State → State) (s : State) :
    (s.err = 0 ∧ gate f s = f s) ∨ (s.err ≠ 0 ∧ gate f s = s) := by
  by_cases h : s.err = 0
  · exact .inl ⟨h, gate_of_ok f h⟩
  · exact .inr ⟨h, gate_of_failed f h⟩

end Sys2Proof.Machine
end

