-- ==== Sys2Proof/Laws/Operands.lean ====
section
/-! SUPPORT. What the conversions between bits and bytes do (spec 00_scope.md R11, 20_memory.md R52), and the
  look-ups in a code table. -/

namespace Sys2Proof.Machine

@[simp] theorem bin8_length (v : Byte) : (bin8 v).length = 8 := by simp [bin8]

/-- The most significant bit comes first (R11). -/
theorem bin8_getElem? (v : Byte) {j : Nat} (h : j < 8) : (bin8 v)[j]? = some (v.getLsbD (7 - j)) := by
  simp [bin8, h]

/-- `uint` undoes `bin8` (R87 (f)). -/
@[simp] theorem uint_bin8 (v : Byte) : uint (bin8 v) = v.toNat := by
  revert v; decide

/-- A sequence of n bits has a value below 2^n. -/
theorem uint_lt (s : BitSeq) : uint s < 2 ^ s.length := by
  induction s with
  | nil => simp [uint]
  | cons b s ih =>
    have : b.toNat ≤ 1 := by cases b <;> simp
    have h2 : b.toNat * 2 ^ s.length ≤ 1 * 2 ^ s.length := Nat.mul_le_mul_right _ this
    simp only [uint, List.length_cons, pow_succ]
    omega

/-- `uint` is injective on sequences of one length. -/
theorem uint_injective {s t : BitSeq} (hl : s.length = t.length) (h : uint s = uint t) : s = t := by
  induction s generalizing t with
  | nil => simpa using hl.symm
  | cons b s ih =>
    cases t with
    | nil => simp at hl
    | cons c t =>
      have hl' : s.length = t.length := by simpa using hl
      have h1 := uint_lt s
      have h2 := uint_lt t
      simp only [uint, hl'] at h h1
      have : b = c ∧ uint s = uint t := by
        cases b <;> cases c <;> simp at h ⊢ <;> omega
      rw [this.1, ih hl' this.2]

/-- `bin8` undoes `uint` (R87 (f)). -/
theorem bin8_uint {s : BitSeq} (h : s.length = 8) : bin8 (BitVec.ofNat 8 (uint s)) = s := by
  apply uint_injective (by simp [h])
  have := uint_lt s
  rw [uint_bin8, BitVec.toNat_ofNat, Nat.mod_eq_of_lt]
  simpa [h] using this

@[simp] theorem unpack_nil : unpack [] = [] := rfl

@[simp] theorem unpack_cons (v : Byte) (b : List Byte) : unpack (v :: b) = bin8 v ++ unpack b := by simp [unpack]

@[simp] theorem unpack_length (b : List Byte) : (unpack b).length = 8 * b.length := by
  induction b with
  | nil => rfl
  | cons v b ih => simp [ih]; omega

theorem pack_nil : pack [] = [] := rfl

/-- Packing takes one byte off the front at a time. -/
theorem pack_append {s t : BitSeq} (h : s.length = 8) :
    pack (s ++ t) = BitVec.ofNat 8 (uint s) :: pack t := by
  have h1 : (s ++ t).length / 8 = t.length / 8 + 1 := by simp [h]
  unfold pack
  rw [h1, List.range_succ_eq_map, List.map_cons, List.map_map]
  congr 1
  · have : slice (s ++ t) (8 * 0) (8 * 0 + 8) = s := by
      simp [slice, h]
    rw [this]
  · apply List.map_congr_left
    intro k _
    have : slice (s ++ t) (8 * (k + 1)) (8 * (k + 1) + 8) = slice t (8 * k) (8 * k + 8) := by
      have e : 8 * (k + 1) = s.length + 8 * k := by omega
      simp only [slice, e, List.drop_append, List.drop_of_length_le (Nat.le_add_right s.length (8*k))]
      simp [show s.length + 8 * k + 8 - (s.length + 8*k) = 8 by omega]
    simp [this]

/-- Packing undoes unpacking, of any bytes (R52). -/
theorem pack_unpack (b : List Byte) : pack (unpack b) = b := by
  induction b with
  | nil => rfl
  | cons v b ih => rw [unpack_cons, pack_append (bin8_length v), ih]; simp

/-- Unpacking undoes packing, of whole bytes (R52). -/
theorem unpack_pack (n : Nat) : ∀ s : BitSeq, s.length = 8 * n → unpack (pack s) = s := by
  induction n with
  | zero => intro s h; have : s = [] := by simpa using h
            subst this; rfl
  | succ n ih =>
    intro s h
    have e := List.take_append_drop 8 s
    have hl : (s.take 8).length = 8 := by simp [h]
    rw [← e, pack_append hl, unpack_cons, bin8_uint hl, ih _ (by simp [h]; omega)]

theorem pack_length (s : BitSeq) : (pack s).length = s.length / 8 := by simp [pack]

/-- A code that is found is an entry of the table. -/
theorem codeOf_some_mem {ct : CodeTable} {s : Symbol} {c : Code} (h : codeOf ct s = some c) : (s, c) ∈ ct := by
  induction ct with
  | nil => simp [codeOf] at h
  | cons e ct ih =>
    obtain ⟨t, d⟩ := e
    simp only [codeOf] at h
    split at h
    · simp_all
    · exact List.mem_cons_of_mem _ (ih h)

/-- No code is found exactly for the symbols without an entry. -/
theorem codeOf_eq_none {ct : CodeTable} {s : Symbol} : codeOf ct s = none ↔ ¬ CodeTable.HasSymbol ct s := by
  induction ct with
  | nil => simp [codeOf]
  | cons e ct ih =>
    obtain ⟨t, d⟩ := e
    simp only [codeOf, CodeTable.HasSymbol, List.map_cons, List.mem_cons] at ih ⊢
    split
    · simp_all
    · rw [ih]; simp_all [eq_comm]

/-- In a table with distinct keys an entry is what is found. -/
theorem codeOf_of_mem {ct : CodeTable} (hk : CodeTable.KeysDistinct ct) {s : Symbol} {c : Code} (h : (s, c) ∈ ct) :
    codeOf ct s = some c := by
  induction ct with
  | nil => simp at h
  | cons e ct ih =>
    obtain ⟨t, d⟩ := e
    simp only [CodeTable.KeysDistinct, List.map_cons, List.nodup_cons] at hk
    simp only [codeOf]
    rcases List.mem_cons.1 h with h | h
    · simp_all
    · have : t ≠ s := by
        rintro rfl
        exact hk.1 (List.mem_map.2 ⟨_, h, rfl⟩)
      rw [if_neg this]
      exact ih hk.2 h

/-- A symbol that is found is an entry of the table. -/
theorem symbolOf_some_mem {ct : CodeTable} {c : BitSeq} {s : Symbol} (h : symbolOf ct c = some s) : (s, c) ∈ ct := by
  induction ct with
  | nil => simp [symbolOf] at h
  | cons e ct ih =>
    obtain ⟨t, d⟩ := e
    simp only [symbolOf] at h
    split at h
    · simp_all
    · exact List.mem_cons_of_mem _ (ih h)

/-- No symbol is found exactly where no entry has the code. -/
theorem symbolOf_eq_none {ct : CodeTable} {c : BitSeq} : symbolOf ct c = none ↔ ∀ e ∈ ct, e.2 ≠ c := by
  induction ct with
  | nil => simp [symbolOf]
  | cons e ct ih =>
    obtain ⟨t, d⟩ := e
    simp only [symbolOf, List.mem_cons, forall_eq_or_imp]
    split <;> simp_all

/-- In an injective table an entry is what is found. -/
theorem symbolOf_of_mem {ct : CodeTable} (hi : CodeTable.Injective ct) {s : Symbol} {c : Code} (h : (s, c) ∈ ct) :
    symbolOf ct c = some s := by
  cases hs : symbolOf ct c with
  | none => exact absurd rfl (symbolOf_eq_none.1 hs _ h)
  | some t => exact congrArg some (hi _ (symbolOf_some_mem hs) _ h rfl)

/-- The ambiguity test fails exactly on injective tables (R163). -/
theorem ambiguous_eq_false {ct : CodeTable} : ambiguous ct = false ↔ CodeTable.Injective ct := by
  simp only [ambiguous, CodeTable.Injective, List.any_eq_false, Bool.and_eq_true, bne_iff_ne, beq_iff_eq,
    List.any_eq_true, not_exists, not_and]
  constructor
  · intro h e he f hf hc
    by_contra hn
    exact h e he f hf hn hc
  · intro h e he f hf hn hc
    exact hn (h e he f hf hc)

/-- The ambiguity test succeeds exactly on tables that are not injective (R163). -/
theorem ambiguous_eq_true {ct : CodeTable} : ambiguous ct = true ↔ ¬ CodeTable.Injective ct := by
  rw [← ambiguous_eq_false]; simp

end Sys2Proof.Machine
end

