-- ==== Sys2Proof/Laws/Stream.lean ====
section
/-! SUPPORT. The bit streams of ENCODE and DECODE: translating a text, the greedy scan, the payload, and decoding a
  payload. -/

namespace Sys2Proof.Machine

/-- Where every symbol has its code, translating appends the codes (R145). -/
theorem translateText_ok {ct : CodeTable} (hk : CodeTable.KeysDistinct ct) {text : List Symbol} {codes : List Code}
    (h : CodesOfText ct text codes) (i : Nat) (body : BitSeq) :
    translateText ct i body text = .ok (body ++ codes.flatten) := by
  induction h generalizing i body with
  | nil => simp [translateText]
  | cons hc _ ih => simp [translateText, codeOf_of_mem hk hc, ih, List.append_assoc]

/-- Where every symbol has an entry, the text has a translation. -/
theorem codesOfText_exists {ct : CodeTable} {text : List Symbol} (h : ∀ x ∈ text, CodeTable.HasSymbol ct x) :
    ∃ codes, CodesOfText ct text codes := by
  induction text with
  | nil => exact ⟨[], .nil⟩
  | cons x text ih =>
    obtain ⟨codes, hc⟩ := ih fun y hy => h y (List.mem_cons_of_mem _ hy)
    obtain ⟨e, he, rfl⟩ := List.mem_map.1 (h x List.mem_cons_self)
    exact ⟨e.2 :: codes, .cons he hc⟩

/-- Translating stops at the first symbol without an entry (R146). -/
theorem translateText_error {ct : CodeTable} {text : List Symbol} {j : Nat} {x : Symbol}
    (h : FirstUnknown ct text j x) (i : Nat) (body : BitSeq) :
    translateText ct i body text = .error (i + j, x) := by
  induction text generalizing i j body with
  | nil => simp [FirstUnknown] at h
  | cons y text ih =>
    obtain ⟨h1, h2, h3⟩ := h
    cases j with
    | zero =>
      simp only [List.getElem?_cons_zero, Option.some.injEq] at h1
      subst h1
      simp [translateText, codeOf_eq_none.2 h2]
    | succ j =>
      have hy : codeOf ct y ≠ none := fun e => codeOf_eq_none.1 e (h3 y (by simp))
      obtain ⟨c, hc⟩ := Option.ne_none_iff_exists'.1 hy
      rw [translateText, hc]
      simp only
      rw [ih ⟨by simpa using h1, h2, fun t ht => h3 t (by simp [ht])⟩]
      congr 2; omega

/-- A text has a translation or a first symbol without an entry. -/
theorem translateText_cases (ct : CodeTable) (text : List Symbol) :
    (∃ codes, CodesOfText ct text codes) ∨ ∃ j x, FirstUnknown ct text j x := by
  induction text with
  | nil => exact .inl ⟨[], .nil⟩
  | cons y text ih =>
    by_cases hy : CodeTable.HasSymbol ct y
    · rcases ih with ⟨codes, hc⟩ | ⟨j, x, h1, h2, h3⟩
      · obtain ⟨e, he, rfl⟩ := List.mem_map.1 hy
        exact .inl ⟨e.2 :: codes, .cons he hc⟩
      · refine .inr ⟨j + 1, x, by simpa using h1, h2, ?_⟩
        intro t ht
        simp only [List.take_succ_cons, List.mem_cons] at ht
        rcases ht with rfl | ht
        · exact hy
        · exact h3 t ht
    · exact .inr ⟨0, y, by simp, hy, by simp⟩

/-- No non-empty beginning of a candidate is a code. -/
def NoCode (ct : CodeTable) (cand : BitSeq) : Prop := ∀ f ∈ ct, f.2 ≠ [] → ¬ f.2 <+: cand

/-- A candidate that is no code extends one no beginning of which is a code. -/
theorem noCode_concat {ct : CodeTable} {cand : BitSeq} {b : Bit} (h : NoCode ct cand)
    (hn : symbolOf ct (cand ++ [b]) = none) : NoCode ct (cand ++ [b]) := by
  intro f hf hne hp
  rcases List.prefix_concat_iff.1 hp with h1 | h1
  · exact symbolOf_eq_none.1 hn f hf h1
  · exact h f hf hne h1

/-- All that the scan does: it completes the candidate and the rest of the body to a greedy parse (R164, R165). -/
theorem scan_spec (ct : CodeTable) (body : BitSeq) :
    ∀ (j : Nat) (cand : BitSeq) (start : Nat) (out : List Symbol), NoCode ct cand → j = start + cand.length →
    ∃ entries rest, GreedyParse ct (cand ++ body) entries rest ∧
      scan ct body j cand start out =
        if rest = [] then .text (out ++ entries.map Prod.fst) else .midCode (j + body.length - rest.length) := by
  induction body with
  | nil =>
    intro j cand start out hc hj
    refine ⟨[], cand, ⟨by simp, by simp, hc⟩, ?_⟩
    simp only [scan, List.map_nil, List.append_nil, List.length_nil, Nat.add_zero]
    split
    · rfl
    · congr 1; omega
  | cons b body ih =>
    intro j cand start out hc hj
    cases hs : symbolOf ct (cand ++ [b]) with
    | some x =>
      obtain ⟨es, rest, hg, he⟩ := ih (j + 1) [] (j + 1) (out ++ [x])
        (by intro f _ hne hp; exact hne (List.prefix_nil.1 hp)) (by simp)
      have hx := symbolOf_some_mem hs
      refine ⟨(x, cand ++ [b]) :: es, rest, ⟨?_, ?_, hg.leftover⟩, ?_⟩
      · have := hg.bits
        simp only [List.nil_append] at this
        simp [this]
      · intro e he'
        rcases List.mem_cons.1 he' with rfl | he'
        · refine ⟨hx, by simp, ?_⟩
          intro f hf hne hp
          rcases List.prefix_concat_iff.1 hp with h1 | h1
          · exact h1
          · exact absurd h1 (hc f hf hne)
        · exact hg.matched e he'
      · rw [scan, hs]; simp only; rw [he]
        simp [Nat.add_comm, Nat.add_left_comm]
    | none =>
      obtain ⟨es, rest, hg, he⟩ := ih (j + 1) (cand ++ [b]) start out (noCode_concat hc hs) (by simp; omega)
      refine ⟨es, rest, by simpa using hg, ?_⟩
      rw [scan, hs]; simp only; rw [he]
      simp [Nat.add_comm, Nat.add_left_comm]

/-- Two beginnings of one sequence: one begins the other. -/
theorem prefix_total {a b c : BitSeq} (h1 : a <+: c) (h2 : b <+: c) : a <+: b ∨ b <+: a :=
  List.prefix_or_prefix_of_prefix h1 h2

/-- A body has one greedy parse, under an injective table. -/
theorem greedyParse_unique {ct : CodeTable} (hi : CodeTable.Injective ct) {body : BitSeq} {es es' :
    List (Symbol × Code)}
    {c c' : BitSeq} (h : GreedyParse ct body es c) (h' : GreedyParse ct body es' c') : es = es' ∧ c = c' := by
  induction es generalizing body es' with
  | nil =>
    cases es' with
    | nil => have := h.bits; have := h'.bits; simp_all
    | cons e' es' =>
      exfalso
      have hm := h'.matched e' (by simp)
      refine h.leftover e' hm.1 hm.2.1 ?_
      have : body = c := by simpa using h.bits
      rw [← this, h'.bits]
      simp
  | cons e es ih =>
    have hm := h.matched e (by simp)
    have hp : e.2 <+: body := by rw [h.bits]; simp
    cases es' with
    | nil =>
      exfalso
      refine h'.leftover e hm.1 hm.2.1 ?_
      have : body = c' := by simpa using h'.bits
      rw [← this]; exact hp
    | cons e' es' =>
      have hm' := h'.matched e' (by simp)
      have hp' : e'.2 <+: body := by rw [h'.bits]; simp
      have hcode : e.2 = e'.2 := by
        rcases prefix_total hp hp' with h1 | h1
        · exact hm'.2.2 e hm.1 hm.2.1 h1
        · exact (hm.2.2 e' hm'.1 hm'.2.1 h1).symm
      have hee : e = e' := Prod.ext (hi _ hm.1 _ hm'.1 hcode) hcode
      subst hee
      have hb : (es.map Prod.snd).flatten ++ c = (es'.map Prod.snd).flatten ++ c' := by
        have := h.bits.symm.trans h'.bits
        simpa using this
      have := ih (body := (es.map Prod.snd).flatten ++ c) ⟨rfl, fun f hf => h.matched f (by simp [hf]), h.leftover⟩
        ⟨hb, fun f hf => h'.matched f (by simp [hf]), h'.leftover⟩
      exact ⟨by rw [this.1], this.2⟩

/-- R161: no byte, no header. -/
theorem decodeStream_nil (ct : CodeTable) : decodeStream ct [] = .noHeader := rfl

/-- The checks in order (R170), on a stream with a header byte. -/
theorem decodeStream_cons (ct : CodeTable) (h : Byte) (rest : List Byte) :
    decodeStream ct (h :: rest) =
      if 8 * rest.length < h.toNat then .padTooLarge
      else if ambiguous ct then .ambiguousTable else scan ct (streamBody h rest) 0 [] 0 [] := by
  have h1 : ¬ 8 * (h :: rest).length < 8 := by simp
  have h2 : slice (unpack (h :: rest)) 0 8 = bin8 h := by simp [slice]
  have h3 : (unpack (h :: rest)).drop 8 = unpack rest := by simp
  simp only [decodeStream, h2, h3, uint_bin8, unpack_length, streamBody, if_neg h1]

/-- The length of the body (R162). -/
theorem streamBody_length (h : Byte) (rest : List Byte) :
    (streamBody h rest).length = 8 * rest.length - h.toNat := by simp [streamBody]

/-- Past the checks, the greedy parse decides (R164, R165). -/
theorem decodeStream_scan {ct : CodeTable} {h : Byte} {rest : List Byte} (hp : h.toNat ≤ 8 * rest.length)
    (hi : CodeTable.Injective ct) {es : List (Symbol × Code)} {cand : BitSeq}
    (hg : GreedyParse ct (streamBody h rest) es cand) :
    decodeStream ct (h :: rest) = if cand = [] then .text (es.map Prod.fst)
      else .midCode (8 * rest.length - h.toNat - cand.length) := by
  rw [decodeStream_cons, if_neg (by omega), ambiguous_eq_false.2 hi]
  obtain ⟨es', c', hg', he⟩ := scan_spec ct (streamBody h rest) 0 [] 0 []
    (by intro f _ hne hp; exact hne (List.prefix_nil.1 hp)) rfl
  obtain ⟨rfl, rfl⟩ := greedyParse_unique hi hg (by simpa using hg')
  simp [he, streamBody_length]

/-- Every body has a greedy parse. -/
theorem greedyParse_exists (ct : CodeTable) (body : BitSeq) : ∃ es cand, GreedyParse ct body es cand := by
  obtain ⟨es', c', hg', _⟩ := scan_spec ct body 0 [] 0 []
    (by intro f _ hne hp; exact hne (List.prefix_nil.1 hp)) rfl
  exact ⟨es', c', by simpa using hg'⟩

/-- Where every symbol has an entry, translating succeeds, whether or not the keys are distinct. -/
theorem translateText_ok_of_has {ct : CodeTable} {text : List Symbol} (h : ∀ x ∈ text, CodeTable.HasSymbol ct x) (i :
    Nat) (body : BitSeq) :
    ∃ codes, CodesOfText ct text codes ∧ translateText ct i body text = .ok (body ++ codes.flatten) := by
  induction text generalizing i body with
  | nil => exact ⟨[], .nil, by simp [translateText]⟩
  | cons x text ih =>
    have hy : codeOf ct x ≠ none := fun e => codeOf_eq_none.1 e (h x (by simp))
    obtain ⟨c, hc⟩ := Option.ne_none_iff_exists'.1 hy
    obtain ⟨codes, h1, h2⟩ := ih (fun y hy => h y (by simp [hy])) (i + 1) (body ++ c)
    exact ⟨c :: codes, .cons (codeOf_some_mem hc) h1, by simp [translateText, hc, h2]⟩

/-- A text that has a translation has an entry for each of its symbols. -/
theorem has_of_codes {ct : CodeTable} {text : List Symbol} {codes : List Code} (h : CodesOfText ct text codes) :
    ∀ x ∈ text, CodeTable.HasSymbol ct x := by
  induction h with
  | nil => simp
  | cons h1 _ ih =>
    intro x hx
    rcases List.mem_cons.1 hx with rfl | hx
    · exact List.mem_map.2 ⟨_, h1, rfl⟩
    · exact ih x hx

/-- The codes of a text parse back to it (R169). -/
theorem greedyParse_of_codes {ct : CodeTable} (hw : CodeTable.WellFormed ct) (hpf : CodeTable.PrefixFree ct)
    {text : List Symbol} {codes : List Code} (h : CodesOfText ct text codes) :
    ∃ es, GreedyParse ct codes.flatten es [] ∧ es.map Prod.fst = text := by
  refine ⟨text.zip codes, ⟨?_, ?_, ?_⟩, ?_⟩
  · rw [List.map_snd_zip (by rw [h.length_eq])]; simp
  · rintro ⟨x, c⟩ he
    have hm : (x, c) ∈ ct := by
      clear hw hpf
      induction h with
      | nil => simp at he
      | cons h1 _ ih =>
        simp only [List.zip_cons_cons, List.mem_cons, Prod.mk.injEq] at he
        rcases he with ⟨rfl, rfl⟩ | he
        · exact h1
        · exact ih he
    refine ⟨hm, hw.2 _ hm, ?_⟩
    rintro ⟨y, d⟩ hf hne hp
    by_cases hxy : y = x
    · subst hxy
      have := (codeOf_of_mem hw.1 hf).symm.trans (codeOf_of_mem hw.1 hm)
      simpa using this
    · exact absurd hp (hpf _ hf _ hm hxy)
  · intro f _ hne hp
    exact hne (List.prefix_nil.1 hp)
  · exact List.map_fst_zip (by rw [h.length_eq])

/-- The size of a payload (R148). -/
theorem payloadBits_length (body : BitSeq) :
    (payloadBits body).length = 8 * (2 + body.length / 8) := by
  simp only [payloadBits, headerBits, List.length_append, bin8_length, List.length_replicate, padLength]
  omega

/-- The bits of a payload are read as they were written. -/
theorem unpack_payload (body : BitSeq) : unpack (pack (payloadBits body)) = payloadBits body :=
  unpack_pack _ _ (payloadBits_length body)

/-- A payload is its header byte and the body with its padding (R71). -/
theorem payload_cons (body : BitSeq) :
    ∃ rest, pack (payloadBits body) = BitVec.ofNat 8 (padLength body.length) :: rest ∧
    8 * rest.length = body.length + padLength body.length ∧
    unpack rest = body ++ List.replicate (padLength body.length) false := by
  refine ⟨pack (body ++ List.replicate (padLength body.length) false), ?_, ?_, ?_⟩
  · rw [payloadBits, List.append_assoc, pack_append (by simp [headerBits])]
    simp only [headerBits, uint_bin8]
    congr 1
    apply BitVec.eq_of_toNat_eq
    simp
  · rw [pack_length]; simp [padLength]; omega
  · apply unpack_pack (body.length / 8 + 1)
    simp [padLength]; omega

/-- R147. -/
theorem padLength_bounds (n : Nat) : 1 ≤ padLength n ∧ padLength n ≤ 8 ∧ 8 ∣ n + padLength n := by
  unfold padLength; omega

/-- A payload of a text decodes to the text (R169). -/
theorem decodeStream_payload {ct : CodeTable} (hw : CodeTable.WellFormed ct) (hpf : CodeTable.PrefixFree ct)
    {text : List Symbol} {codes : List Code} (h : CodesOfText ct text codes) :
    decodeStream ct (pack (payloadBits codes.flatten)) = .text text := by
  obtain ⟨rest, h1, h2, h3⟩ := payload_cons codes.flatten
  have hb := padLength_bounds codes.flatten.length
  have hpad : (BitVec.ofNat 8 (padLength codes.flatten.length)).toNat = padLength codes.flatten.length := by
    rw [BitVec.toNat_ofNat, Nat.mod_eq_of_lt (by omega)]
  obtain ⟨es, hg, he⟩ := greedyParse_of_codes hw hpf h
  rw [h1, decodeStream_scan (es := es) (cand := []) (by omega) (prefixFree_injective hpf)]
  · simp [he]
  · have : streamBody (BitVec.ofNat 8 (padLength codes.flatten.length)) rest = codes.flatten := by
      rw [streamBody, h3, hpad, h2]
      simp
    rw [this]; exact hg

end Sys2Proof.Machine
end

