-- ==== Sys2Proof/Laws/Tree.lean ====
section
/-! SUPPORT. The sort and the merge loop of BUILD (spec 41_tree_builder.md R110 to R113): what a turn does, and an
  induction over the turns. -/

namespace Sys2Proof.Machine

/-- Inserting keeps the entries. -/
theorem insertDesc_perm (e : WorkEntry) (w : List WorkEntry) : (insertDesc e w).Perm (e :: w) := by
  induction w with
  | nil => exact .refl _
  | cons f w ih =>
    simp only [insertDesc]
    split
    · exact .refl _
    · exact (ih.cons f).trans (.swap ..)

/-- Sorting keeps the entries (R13). -/
theorem sortDesc_perm (w : List WorkEntry) : (sortDesc w).Perm w := by
  induction w with
  | nil => exact .refl _
  | cons e w ih => exact (insertDesc_perm e _).trans (ih.cons e)

/-- Inserting keeps the order. -/
theorem insertDesc_sorted (e : WorkEntry) {w : List WorkEntry} (h : w.Pairwise fun e f => f.2 ≤ e.2) :
    (insertDesc e w).Pairwise fun e f => f.2 ≤ e.2 := by
  induction w with
  | nil => simp [insertDesc]
  | cons f w ih =>
    have h' := List.pairwise_cons.1 h
    simp only [insertDesc]
    split
    · next hle =>
      refine List.pairwise_cons.2 ⟨?_, h⟩
      intro g hg
      rcases List.mem_cons.1 hg with rfl | hg
      · exact hle
      · exact (h'.1 g hg).trans hle
    · next hle =>
      refine List.pairwise_cons.2 ⟨?_, ih h'.2⟩
      intro g hg
      rcases List.mem_cons.1 ((insertDesc_perm e w).mem_iff.1 hg) with rfl | hg
      · omega
      · exact h'.1 g hg

/-- Sorting sorts, by weight descending (R13). -/
theorem sortDesc_sorted (w : List WorkEntry) : (sortDesc w).Pairwise fun e f => f.2 ≤ e.2 := by
  induction w with
  | nil => simp [sortDesc]
  | cons e w ih => exact insertDesc_sorted e ih

/-- Inserting is stable. -/
theorem insertDesc_filter (e : WorkEntry) {w : List WorkEntry} (h : w.Pairwise fun e f => f.2 ≤ e.2) (n : Nat) :
    (insertDesc e w).filter (fun e => e.2 = n) = (e :: w).filter (fun e => e.2 = n) := by
  induction w with
  | nil => rfl
  | cons f w ih =>
    have h' := List.pairwise_cons.1 h
    simp only [insertDesc]
    split
    · rfl
    · next hle =>
      rw [List.filter_cons, ih h'.2]
      by_cases h1 : f.2 = n <;> by_cases h2 : e.2 = n <;> simp [h1, h2]
      omega

/-- Sorting is stable (R13). -/
theorem sortDesc_filter (w : List WorkEntry) (n : Nat) :
    (sortDesc w).filter (fun e => e.2 = n) = w.filter (fun e => e.2 = n) := by
  induction w with
  | nil => rfl
  | cons e w ih =>
    show (insertDesc e (sortDesc w)).filter _ = _
    rw [insertDesc_filter e (sortDesc_sorted w), List.filter_cons, List.filter_cons, ih]

/-- There is one stable order by weight. -/
theorem sorted_unique {v w : List WorkEntry} (hp : v.Perm w) (hv : v.Pairwise fun e f => f.2 ≤ e.2)
    (hw : w.Pairwise fun e f => f.2 ≤ e.2)
    (h : ∀ n : Nat, v.filter (fun e => e.2 = n) = w.filter (fun e => e.2 = n)) : v = w := by
  induction v generalizing w with
  | nil => exact (List.nil_perm.1 hp).symm
  | cons e v ih =>
    cases w with
    | nil => simp at hp
    | cons f w =>
      have hv' := List.pairwise_cons.1 hv
      have hw' := List.pairwise_cons.1 hw
      have h1 : f.2 ≤ e.2 := by
        rcases List.mem_cons.1 (hp.mem_iff.2 List.mem_cons_self) with h1 | h1
        · rw [h1]
        · exact hv'.1 _ h1
      have h2 : e.2 ≤ f.2 := by
        rcases List.mem_cons.1 (hp.mem_iff.1 List.mem_cons_self) with h1 | h1
        · rw [h1]
        · exact hw'.1 _ h1
      have h3 : e = f := by
        have := h e.2
        simp [show f.2 = e.2 by omega] at this
        exact this.1
      subst h3
      refine congrArg _ (ih (List.Perm.cons_inv hp) hv'.2 hw'.2 fun n => ?_)
      have := h n
      by_cases h1 : e.2 = n <;> simpa [List.filter_cons, h1] using this

/-! merge -/
/-- All that a turn of BUILD's loop does on two entries or more (R110). -/
theorem mergeStep_spec {w : List WorkEntry} (h : 1 < w.length) :
    ∃ rest bl last, sortDesc w = rest ++ [bl, last] ∧ mergeStep w = rest ++ [mergeEntries last bl] := by
  have hl : (sortDesc w).length = w.length := (sortDesc_perm w).length_eq
  rcases hr : (sortDesc w).reverse with _ | ⟨last, _ | ⟨bl, rest⟩⟩
  · have := congrArg List.length hr; simp [hl] at this; simp [this] at h
  · have := congrArg List.length hr; simp [hl] at this; omega
  · refine ⟨rest.reverse, bl, last, ?_, by simp [mergeStep, hr]⟩
    have := congrArg List.reverse hr
    simpa using this

/-- A turn leaves one entry fewer (R113). -/
theorem mergeStep_length {w : List WorkEntry} (h : 1 < w.length) : (mergeStep w).length = w.length - 1 := by
  obtain ⟨rest, bl, last, h1, h2⟩ := mergeStep_spec h
  have hl : (sortDesc w).length = w.length := (sortDesc_perm w).length_eq
  rw [h1] at hl; rw [h2]; simp at hl ⊢; omega

/-- With enough fuel the loop runs once for each entry but one (R113). -/
theorem mergeLoop_eq_iterate : ∀ (n : Nat) (w : List WorkEntry), w.length ≤ n + 1 → w ≠ [] →
    mergeLoop n w = mergeStep^[w.length - 1] w
  | 0, w, h, hn => by
    have : w.length = 1 := by have := List.length_pos_of_ne_nil hn; omega
    simp [mergeLoop, this]
  | n + 1, w, h, hn => by
    have hp := List.length_pos_of_ne_nil hn
    simp only [mergeLoop]
    split
    · next h1 =>
      have hl := mergeStep_length h1
      have : mergeStep w ≠ [] := by intro e; rw [e] at hl; simp at hl; omega
      rw [mergeLoop_eq_iterate n _ (by omega) this, hl, ← Function.iterate_succ_apply]
      congr 1; omega
    · next h1 =>
      have : w.length - 1 = 0 := by omega
      simp [this]

/-- The entries left after k turns (R113). -/
theorem iterate_length (w : List WorkEntry) (hn : w ≠ []) :
    ∀ k, k ≤ w.length - 1 → (mergeStep^[k] w).length = w.length - k
  | 0, _ => by simp
  | k + 1, h => by
    have ih := iterate_length w hn k (by omega)
    rw [Function.iterate_succ_apply', mergeStep_length (by omega), ih]; omega

/-- What sorting and merging keep holds after any number of turns. -/
theorem mergeStep_induct {P : List WorkEntry → Prop}
    (hstep : ∀ (w rest : List WorkEntry) (bl last : WorkEntry), P w → (rest ++ [bl, last]).Perm w →
      (rest ++ [bl, last]).Pairwise (fun e f => f.2 ≤ e.2) → P (rest ++ [mergeEntries last bl]))
    {w : List WorkEntry} (h0 : P w) (hn : w ≠ []) : ∀ k, k ≤ w.length - 1 → P (mergeStep^[k] w)
  | 0, _ => h0
  | k + 1, h => by
    have ih := mergeStep_induct hstep h0 hn k (by omega)
    have hl := iterate_length w hn k (by omega)
    obtain ⟨rest, bl, last, h1, h2⟩ := mergeStep_spec (w := mergeStep^[k] w) (by omega)
    rw [Function.iterate_succ_apply', h2]
    exact hstep _ rest bl last ih (h1 ▸ sortDesc_perm _) (h1 ▸ sortDesc_sorted _)

/-- What sorting and merging keep holds of the one entry at the end, whose node BUILD stores. -/
theorem buildTree_spec {P : List WorkEntry → Prop} {ft : FreqTable} (hn : ft ≠ []) (h0 : P (initialWork ft))
    (hstep : ∀ (w rest : List WorkEntry) (bl last : WorkEntry), P w → (rest ++ [bl, last]).Perm w →
      (rest ++ [bl, last]).Pairwise (fun e f => f.2 ≤ e.2) → P (rest ++ [mergeEntries last bl])) :
    ∃ e, buildTree ft = some e.1 ∧ mergeStep^[ft.length - 1] (initialWork ft) = [e] ∧ P [e] := by
  have hn' : initialWork ft ≠ [] := by simpa [initialWork] using hn
  have hl : (initialWork ft).length = ft.length := by simp [initialWork]
  have h1 := iterate_length _ hn' (ft.length - 1) (by omega)
  have hp := List.length_pos_of_ne_nil hn
  rw [hl, show ft.length - (ft.length - 1) = 1 by omega] at h1
  obtain ⟨e, he⟩ := List.length_eq_one_iff.1 h1
  have h2 := mergeStep_induct hstep h0 hn' (ft.length - 1) (by omega)
  rw [he] at h2
  refine ⟨e, ?_, he, h2⟩
  rw [buildTree, mergeLoop_eq_iterate _ _ (by omega) hn', hl, he]; rfl

/-- The leaves of a working collection. -/
def workLeaves (w : List WorkEntry) : List Symbol := w.flatMap fun e => e.1.leaves

/-- At the start the leaves are the symbols of the table, in order. -/
theorem workLeaves_initial (ft : FreqTable) : workLeaves (initialWork ft) = ft.map Prod.fst := by
  induction ft with
  | nil => rfl
  | cons e ft ih => simp_all [workLeaves, initialWork, Node.leaves]

/-- The leaves of the tree are the symbols of the table (R118 (a)). -/
theorem buildTree_leaves {ft : FreqTable} (hn : ft ≠ []) :
    ∃ root, buildTree ft = some root ∧ root.leaves.Perm (ft.map Prod.fst) := by
  obtain ⟨e, h1, _, h2⟩ := buildTree_spec (P := fun w => (workLeaves w).Perm (ft.map Prod.fst)) hn
    (by rw [workLeaves_initial])
    (by
      intro w rest bl last hw hp _
      refine List.Perm.trans ?_ hw
      refine List.Perm.trans ?_ (hp.flatMap_right _)
      simp only [List.flatMap_append, workLeaves]
      refine List.Perm.append_left _ ?_
      simp [mergeEntries, Node.leaves, List.perm_append_comm])
  exact ⟨e.1, h1, by simpa [workLeaves] using h2⟩

end Sys2Proof.Machine
end

