-- ==== Sys2Proof/Laws/Commands.lean ====
section
/-! SUPPORT. Everything a command, a command word, a raise and a host write can do. -/

namespace Sys2Proof.Machine

/-- COUNT while no failure is recorded. -/
theorem exec_count_ok {s : State} (h : s.err = 0) : exec .count s = .next (s.setFt (countText s.text)) := by
  simp [exec, execCount, gate_of_ok _ h]

/-- BUILD while no failure is recorded. -/
theorem exec_build_ok {s : State} (h : s.err = 0) : exec .build s = .next (buildBody s) := by
  simp [exec, execBuild, gate_of_ok _ h]

/-- ASSIGN while no failure is recorded. -/
theorem exec_assign_ok {s : State} (h : s.err = 0) : exec .assign s = .next (assignBody s) := by
  simp [exec, execAssign, gate_of_ok _ h]

/-- ENCODE while no failure is recorded. -/
theorem exec_encode_ok {s : State} (h : s.err = 0) : exec .encode s = .next (encodeBody s) := by
  simp [exec, execEncode, gate_of_ok _ h]

/-- DECODE while no failure is recorded. -/
theorem exec_decode_ok {s : State} (h : s.err = 0) : exec .decode s = .next (decodeBody s) := by
  simp [exec, execDecode, gate_of_ok _ h]

/-- While a failure is recorded every command but CLRERR and RESET is ignored (R183). -/
theorem exec_failed {i : Instr} {s : State} (hi : i ≠ .clrerr) (hj : i ≠ .reset) (h : s.err ≠ 0) :
    exec i s = .next s := by
  cases i <;> simp_all [exec, execCount, execBuild, execAssign, execEncode, execDecode, gate_of_failed]

/-- BUILD of the empty table (R116). -/
theorem buildBody_nil {s : State} (h : s.ft = []) : buildBody s = { s.failed 1 {} with tree := none } := by
  rw [buildBody]; simp only [State.setTree_ft]; split
  · rfl
  · simp_all

/-- BUILD of a table with an entry (R110). -/
theorem buildBody_cons {s : State} (h : s.ft ≠ []) :
    ∃ root, buildTree s.ft = some root ∧ buildBody s = s.setTree (some root) := by
  obtain ⟨root, hr, _⟩ := buildTree_leaves h
  refine ⟨root, hr, ?_⟩
  unfold buildBody
  simp only [State.setTree_ft]
  split
  · contradiction
  · rw [hr]; rfl

/-- ASSIGN without a tree (R133). -/
theorem assignBody_none {s : State} (h : s.tree = none) : assignBody s = s.failed 1 {} := by
  simp [assignBody, h]; rfl

/-- ASSIGN of a tree (R130). -/
theorem assignBody_some {s : State} {root : Node} (h : s.tree = some root) :
    assignBody s = { s with ct := codesOf root, tree := none } := by
  simp [assignBody, h]; rfl

/-- ENCODE of a text whose symbols all have codes (R145). -/
theorem encodeBody_ok {s : State} {codes : List Code} (hk : CodeTable.KeysDistinct s.ct)
    (h : CodesOfText s.ct s.text codes) :
    encodeBody s = s.setOut (pack (payloadBits codes.flatten)) true := by
  simp [encodeBody, translateText_ok hk h]

/-- ENCODE of a text with a symbol that has none (R146). -/
theorem encodeBody_error {s : State} {i : Nat} {x : Symbol} (h : FirstUnknown s.ct s.text i x) :
    encodeBody s = s.failed 2 { index := i, sym := some x } := by
  simp [encodeBody, translateText_error h]; rfl

/-- All that ENCODE can do. -/
theorem encodeBody_cases (s : State) :
    (∃ codes, CodesOfText s.ct s.text codes ∧ encodeBody s = s.setOut (pack (payloadBits codes.flatten)) true) ∨
    ∃ i x, FirstUnknown s.ct s.text i x ∧ encodeBody s = s.failed 2 { index := i, sym := some x } := by
  rcases translateText_cases s.ct s.text with ⟨codes, hc⟩ | ⟨i, x, h⟩
  · obtain ⟨codes, h1, h2⟩ := translateText_ok_of_has (has_of_codes hc) 0 []
    exact .inl ⟨codes, h1, by simp [encodeBody, h2]⟩
  · exact .inr ⟨i, x, h, encodeBody_error h⟩

/-- All that DECODE can do, in the order of the checks (R170). -/
theorem decodeBody_cases (s : State) :
    (s.input = [] ∧ decodeBody s = s.failed 4 { sub := 1 }) ∨
    ∃ h rest, s.input = h :: rest ∧
      ((8 * rest.length < h.toNat ∧ decodeBody s = s.failed 4 { sub := 2 }) ∨
       (h.toNat ≤ 8 * rest.length ∧ ¬ CodeTable.Injective s.ct ∧ decodeBody s = s.failed 3 {}) ∨
       (h.toNat ≤ 8 * rest.length ∧ CodeTable.Injective s.ct ∧
        ∃ es cand, GreedyParse s.ct (streamBody h rest) es cand ∧
          ((cand = [] ∧ decodeBody s = s.setDtext (es.map Prod.fst) true) ∨
           (cand ≠ [] ∧
             decodeBody s = s.failed 4 { sub := 3, index := 8 * rest.length - h.toNat - cand.length })))) := by
  cases hin : s.input with
  | nil => exact .inl ⟨rfl, by simp [decodeBody, hin, decodeStream_nil]; rfl⟩
  | cons h rest =>
    refine .inr ⟨h, rest, rfl, ?_⟩
    by_cases hp : 8 * rest.length < h.toNat
    · exact .inl ⟨hp, by simp [decodeBody, hin, decodeStream_cons, hp]; rfl⟩
    by_cases hi : CodeTable.Injective s.ct
    · obtain ⟨es, cand, hg⟩ := greedyParse_exists s.ct (streamBody h rest)
      refine .inr (.inr ⟨by omega, hi, es, cand, hg, ?_⟩)
      have := decodeStream_scan (by omega) hi hg
      by_cases hc : cand = []
      · exact .inl ⟨hc, by simp [decodeBody, hin, this, hc]⟩
      · exact .inr ⟨hc, by simp [decodeBody, hin, this, hc]; rfl⟩
    · exact .inr (.inl ⟨by omega, hi, by simp [decodeBody, hin, decodeStream_cons, hp, ambiguous_eq_true.2 hi]; rfl⟩)

/-- All that BUILD can do. -/
theorem buildBody_cases (s : State) : (s.ft = [] ∧ buildBody s = { s.failed 1 {} with tree := none }) ∨
    (s.ft ≠ [] ∧ ∃ root, buildTree s.ft = some root ∧ buildBody s = s.setTree (some root)) := by
  by_cases h : s.ft = []
  · exact .inl ⟨h, buildBody_nil h⟩
  · exact .inr ⟨h, buildBody_cons h⟩

/-- All that ASSIGN can do. -/
theorem assignBody_cases (s : State) : (s.tree = none ∧ assignBody s = s.failed 1 {}) ∨
    (∃ root, s.tree = some root ∧ assignBody s = { s with ct := codesOf root, tree := none }) := by
  cases h : s.tree with
  | none => exact .inl ⟨rfl, assignBody_none h⟩
  | some r => exact .inr ⟨r, rfl, assignBody_some h⟩

/-- A word that names a command runs it. -/
theorem issue_of_instr {c : Byte} {i : Instr} (h : decode c = .instr i) (s : State) : issue c s = exec i s := by
  simp [issue, h]

/-- A word that names no command is the illegal command (R182). -/
theorem issue_of_reserved {c op : Byte} (h : decode c = .reserved op) (s : State) :
    issue c s = .next (illegalCommand op s) := by
  simp [issue, h]

/-- A reserved code is the word itself. -/
theorem decode_reserved {c op : Byte} (h : decode c = .reserved op) : op = c := by
  unfold decode at h; split at h <;> simp_all

@[simp] theorem decode_encode (i : Instr) : decode (Sys2Proof.encode i) = .instr i := by cases i <;> rfl

@[simp] theorem issue_encode (i : Instr) (s : State) :
    issue (Sys2Proof.encode i) s = exec i s := issue_of_instr (decode_encode i) s

/-- Every command has a next state (R244). -/
theorem exec_total (i : Instr) (s : State) : ∃ t, exec i s = .next t := by
  cases i <;> exact ⟨_, rfl⟩

/-- Every command word has a next state (R244). -/
theorem issue_total (c : Byte) (s : State) : ∃ t, issue c s = .next t := by
  cases h : decode c with
  | instr i => rw [issue_of_instr h]; exact exec_total i s
  | reserved op => exact ⟨_, issue_of_reserved h s⟩

/-- All that a command word can do while no failure is recorded. -/
theorem issue_cases {c : Byte} {s t : State} (h : s.err = 0) (he : issue c s = .next t) :
    (decode c = .instr .count ∧ t = s.setFt (countText s.text)) ∨
    (decode c = .instr .build ∧ t = buildBody s) ∨ (decode c = .instr .assign ∧ t = assignBody s) ∨
    (decode c = .instr .encode ∧ t = encodeBody s) ∨ (decode c = .instr .decode ∧ t = decodeBody s) ∨
    (decode c = .instr .clrerr ∧ t = clearError s) ∨ (decode c = .instr .reset ∧ t = resetItems s) ∨
    (decode c = .reserved c ∧ t = s.failed 5 { index := c.toNat }) := by
  cases hd : decode c with
  | instr i =>
    rw [issue_of_instr hd] at he
    cases i
    · rw [exec_count_ok h] at he; simp at he; simp [he]
    · rw [exec_build_ok h] at he; simp at he; simp [he]
    · rw [exec_assign_ok h] at he; simp at he; simp [he]
    · rw [exec_encode_ok h] at he; simp at he; simp [he]
    · rw [exec_decode_ok h] at he; simp at he; simp [he]
    · simp [exec, execClrerr] at he; simp [he]
    · simp [exec, execReset] at he; simp [he]
  | reserved op =>
    have := decode_reserved hd; subst this
    rw [issue_of_reserved hd, illegalCommand, gate_of_ok _ h] at he
    simp at he; subst he; simp; rfl

/-- A sequence is over the symbols of a type exactly if each of its members is one. -/
theorem allSymbols_iff {count : Option Nat} {v : List Symbol} :
    allSymbols count v = true ↔ ∀ x ∈ v, isSymbol count x = true := by
  simp [allSymbols]

/-- What takes its members from a sequence of symbols is one. -/
theorem allSymbols_subset {count : Option Nat} {v w : List Symbol} (h : allSymbols count w = true) (hs : v ⊆ w) :
    allSymbols count v = true :=
  allSymbols_iff.2 fun x hx => allSymbols_iff.1 h x (hs hx)

@[simp] theorem allSymbols_none (v : List Symbol) : allSymbols none v = true := by simp [allSymbols, isSymbol]

@[simp] theorem allSymbols_nil (count : Option Nat) : allSymbols count [] = true := rfl

/-- All that a host write of `FT` that is not refused says of its value (R189). -/
theorem writeRefusal_ft {p : Config.Params} {out : List Byte} {v : FreqTable} :
    writeRefusal p out (.ft v) = none ↔
      allSymbols p.symbolCount (v.map Prod.fst) = true ∧ FreqTable.WellFormed v ∧
        withinBound p.maxSyms v.length = true := by
  simp only [writeRefusal]
  split
  · split
    · split <;> simp_all
    · simp_all
  · simp_all

/-- All that a host write of `CT` that is not refused says of its value (R190). -/
theorem writeRefusal_ct {p : Config.Params} {out : List Byte} {v : CodeTable} :
    writeRefusal p out (.ct v) = none ↔
      allSymbols p.symbolCount (v.map Prod.fst) = true ∧ CodeTable.WellFormed v ∧
        withinBound p.maxSyms v.length = true := by
  simp only [writeRefusal]
  constructor
  · intro h
    split at h
    · next ha =>
      split at h
      · next hk =>
        split at h
        · next hc =>
          split at h
          · next hb => exact ⟨ha, ⟨hk, hc⟩, hb⟩
          · cases h
        · cases h
      · cases h
    · cases h
  · rintro ⟨ha, ⟨hk, hc⟩, hb⟩
    rw [if_pos ha, if_pos hk, if_pos hc, if_pos hb]

/-- All that a host write of `TEXT` that is not refused says of its value (R188). -/
theorem writeRefusal_text {p : Config.Params} {out : List Byte} {v : List Symbol} :
    writeRefusal p out (.text v) = none ↔
      allSymbols p.symbolCount v = true ∧ withinBound p.maxTextLen v.length = true := by
  simp only [writeRefusal]
  split
  · split <;> simp_all
  · simp_all

/-- A host write has a next state or is refused (R193 (c)); it never faults. -/
theorem hostWrite_cases (p : Config.Params) (w : HostWrite) (s : State) :
    (writeRefusal p s.out w = none ∧ hostWrite p w s = .next (storeBuffer w s)) ∨
    ∃ r, writeRefusal p s.out w = some r ∧ hostWrite p w s = .refused r := by
  cases h : writeRefusal p s.out w with
  | none => exact .inl ⟨rfl, by simp [hostWrite, h]⟩
  | some r => exact .inr ⟨r, rfl, by simp [hostWrite, h]⟩

/-- All that a host write can do when it has a next state. -/
theorem hostWrite_next {p : Config.Params} {w : HostWrite} {s t : State} (h : hostWrite p w s = .next t) :
    writeRefusal p s.out w = none ∧ t = storeBuffer w s := by
  unfold hostWrite at h; split at h <;> simp_all

/-- `STATUS` as a number (R32). -/
theorem status_eq (s : State) :
    status s = BitVec.ofNat 8 ((if s.err = 0 then 0 else 1) + (if s.outValid then 2 else 0) + (if s.dtextValid then 4
      else 0) + (if s.tree.isSome then 8 else 0)) := by
  simp only [status, errFlag, treePresent]
  by_cases h : s.err = 0
  · have : (s.err != 0) = false := by simp [h]
    rw [this, if_pos h]; generalize s.tree.isSome = a; generalize s.dtextValid = b; generalize s.outValid = c
    cases a <;> cases b <;> cases c <;> rfl
  · have : (s.err != 0) = true := bne_iff_ne.2 h
    rw [this, if_neg h]; generalize s.tree.isSome = a; generalize s.dtextValid = b; generalize s.outValid = c
    cases a <;> cases b <;> cases c <;> rfl

/-- Bit 0 of `STATUS` is `ERRF` (R32). -/
theorem status_bit0 (s : State) : (status s).getLsbD 0 = errFlag s := by
  simp only [status]
  generalize errFlag s = d; generalize treePresent s = a; generalize s.dtextValid = b; generalize s.outValid = c
  cases a <;> cases b <;> cases c <;> cases d <;> rfl

end Sys2Proof.Machine
end

