-- ==== Sys2Proof/Laws/PerInstr.lean ====
section
/-! SUPPORT. Facts about every command as syntax: its row of the opcode table (spec/opcode_table.json). -/

namespace Sys2Proof.Laws.OpcodeRow

/-- The table has a row for the command, whose fixed bits are the command's whole word. -/
def Statement (i : Instr) : Prop :=
  ∃ r ∈ opcodeTable, r.instr = i ∧ r.mask = 0xFF ∧ r.pattern = Sys2Proof.encode i

theorem count : Statement .count := by unfold Statement; decide
theorem build : Statement .build := by unfold Statement; decide
theorem assign : Statement .assign := by unfold Statement; decide
theorem encode : Statement .encode := by unfold Statement; decide
theorem decode : Statement .decode := by unfold Statement; decide
theorem clrerr : Statement .clrerr := by unfold Statement; decide
theorem reset : Statement .reset := by unfold Statement; decide

end Sys2Proof.Laws.OpcodeRow
end

