-- ==== Sys2Proof/Laws/Run.lean ====
section
/-! SUPPORT. Runs: how a run is taken apart, COMPRESS step by step, and that no element of a run looks at the host
  actions after it. -/

namespace Sys2Proof.Machine

@[simp] theorem runEvents_nil (p : Config.Params) (s : State) : runEvents p [] s = .next s := rfl

/-- A run is its first element and the run from there. -/
theorem runEvents_cons {p : Config.Params} {e : HostEvent} {es : List HostEvent} {s t : State} (h :
    applyEvent p e s = .next t) :
    runEvents p (e :: es) s = runEvents p es t := by simp [runEvents, h]

/-- A run in two parts. -/
theorem runEvents_append {p : Config.Params} {es es' : List HostEvent} {s t : State} (h : runEvents p es s = .next t) :
    runEvents p (es ++ es') s = runEvents p es' t := by
  induction es generalizing s with
  | nil => simp at h; simp [h]
  | cons e es ih =>
    simp only [runEvents, List.cons_append] at h ⊢
    split at h
    · exact ih h
    · simp at h
    · simp at h

/-- A run of commands, one command at a time. -/
theorem runEvents_command {p : Config.Params} {i : Instr} {is : List Instr} {s t : State} (h : exec i s = .next t) :
    runEvents p (commands (i :: is)) s = runEvents p (commands is) t := by
  apply runEvents_cons
  simp [applyEvent, h]

@[simp] theorem commands_nil : commands [] = [] := rfl

theorem commands_append (a b : List Instr) : commands (a ++ b) = commands a ++ commands b := by simp [commands]

/-- While a failure is recorded a run of gated commands changes nothing (R183). -/
theorem runEvents_gated (p : Config.Params) {s : State} (h : s.err ≠ 0) : ∀ is :
    List Instr, (∀ i ∈ is, i ≠ .clrerr ∧ i ≠ .reset) →
    runEvents p (commands is) s = .next s
  | [], _ => rfl
  | i :: is, hi => by
    rw [runEvents_command (exec_failed (hi i (by simp)).1 (hi i (by simp)).2 h)]
    exact runEvents_gated p h is fun j hj => hi j (by simp [hj])

/-- `COUNT; BUILD; ASSIGN` of a non-empty text, whatever follows (R185). -/
theorem compress_steps (p : Config.Params) {s : State} (h : s.err = 0) (hn : s.text ≠ []) :
    ∃ (root : Node) (codes : List Code), buildTree (countText s.text) = some root ∧ root.leaves.Nodup ∧
      CodesOfText (codesOf root) s.text codes ∧
      (∀ es, runEvents p (commands [.count, .build, .assign] ++ es) s =
        runEvents p es { s with ft := countText s.text, ct := codesOf root, tree := none }) := by
  have hft : countText s.text ≠ [] := by
    rw [countText_eq]
    cases hs : s.text with
    | nil => exact absurd hs hn
    | cons x r => simp [firstOccurrences]
  obtain ⟨root, hr, hb⟩ := buildBody_cons (s := s.setFt (countText s.text)) hft
  obtain ⟨root', hr', hl⟩ := buildTree_leaves hft
  rw [State.setFt_ft] at hr
  rw [hr] at hr'; simp at hr'; subst hr'
  have hkeys : (countText s.text).map Prod.fst = firstOccurrences s.text
    := by rw [countText_eq]; simp [Function.comp_def]
  rw [hkeys] at hl
  have hnd : root.leaves.Nodup := hl.nodup_iff.2 (firstOccurrences_nodup _)
  obtain ⟨codes, hc⟩ := codesOfText_exists (ct := codesOf root) (text := s.text) (by
    intro x hx
    rw [CodeTable.HasSymbol, codesOf_keys]
    exact hl.mem_iff.2 ((firstOccurrences_mem _ _).2 hx))
  refine ⟨root, codes, hr, hnd, hc, fun es => ?_⟩
  have e1 : exec .count s = .next (s.setFt (countText s.text)) := exec_count_ok h
  have e2 : exec .build (s.setFt (countText s.text)) = .next ((s.setFt (countText s.text)).setTree (some root)) := by
    rw [exec_build_ok (by exact h), hb]
  have e3 : exec .assign ((s.setFt (countText s.text)).setTree (some root)) =
      .next { s with ft := countText s.text, ct := codesOf root, tree := none } := by
    rw [exec_assign_ok (by exact h), assignBody_some (root := root) rfl]; rfl
  apply runEvents_append
  rw [runEvents_command e1, runEvents_command e2, runEvents_command e3]
  rfl

/-- `COUNT; BUILD` of the empty text, whatever follows (R185). -/
theorem compress_empty (p : Config.Params) {s : State} (h : s.err = 0) (hn : s.text = []) (es : List HostEvent) :
    runEvents p (commands [.count, .build] ++ es) s = runEvents p es { s.failed 1 {} with ft := [], tree := none } := by
  apply runEvents_append
  rw [runEvents_command (exec_count_ok h), hn]
  rw [runEvents_command (by rw [exec_build_ok (by exact h), buildBody_nil rfl])]
  rfl

/-- No command looks at the host's actions still to come. -/
theorem exec_setPending (i : Instr) (s t : State) (v : List HostEvent) (h : exec i s = .next t) :
    exec i (s.setPending v) = .next (t.setPending v) := by
  by_cases hs : s.err = 0
  · cases i
    · rw [exec_count_ok hs] at h; simp at h; subst h; rw [exec_count_ok (by exact hs)]; rfl
    · rw [exec_build_ok hs] at h; simp at h; subst h; rw [exec_build_ok (by exact hs)]
      simp only [buildBody, State.setTree_ft, State.setPending_ft]; split <;> rfl
    · rw [exec_assign_ok hs] at h; simp at h; subst h; rw [exec_assign_ok (by exact hs)]
      simp only [assignBody, State.setPending_tree]; split <;> rfl
    · rw [exec_encode_ok hs] at h; simp at h; subst h; rw [exec_encode_ok (by exact hs)]
      simp only [encodeBody, State.setPending_text, State.setPending_ct]; split <;> rfl
    · rw [exec_decode_ok hs] at h; simp at h; subst h; rw [exec_decode_ok (by exact hs)]
      simp only [decodeBody, State.setPending_input, State.setPending_ct]; split <;> rfl
    · simp [exec, execClrerr] at h; subst h; rfl
    · simp [exec, execReset] at h; subst h; rfl
  · by_cases h1 : i = .clrerr
    · subst h1; simp [exec, execClrerr] at h; subst h; rfl
    by_cases h2 : i = .reset
    · subst h2; simp [exec, execReset] at h; subst h; rfl
    rw [exec_failed h1 h2 hs] at h; simp at h; subst h; exact exec_failed h1 h2 hs

/-- No command word looks at the host's actions still to come. -/
theorem issue_setPending (c : Byte) (s t : State) (v : List HostEvent) (h : issue c s = .next t) :
    issue c (s.setPending v) = .next (t.setPending v) := by
  cases hd : decode c with
  | instr i => rw [issue_of_instr hd] at *; exact exec_setPending i s t v h
  | reserved op =>
    rw [issue_of_reserved hd] at *; simp at h; subst h
    by_cases hs : s.err = 0
    · rw [illegalCommand, illegalCommand, gate_of_ok _ hs, gate_of_ok _ (by exact hs)]; rfl
    · rw [illegalCommand, illegalCommand, gate_of_failed _ hs, gate_of_failed _ (by exact hs)]

/-- No element of a run looks at those after it. -/
theorem event_setPending (p : Config.Params) (e : HostEvent) (s : State) (v : List HostEvent) :
    (∃ t, applyEvent p e s = .next t ∧ applyEvent p e (s.setPending v) = .next (t.setPending v)) ∨
    (∃ r, applyEvent p e s = .refused r ∧ applyEvent p e (s.setPending v) = .refused r) := by
  cases e with
  | cmd c => obtain ⟨t, ht⟩ := issue_total c s; exact .inl ⟨t, ht, issue_setPending c s t v ht⟩
  | write w =>
    simp only [applyEvent, hostWrite, State.setPending_out]
    cases writeRefusal p s.out w with
    | none => exact .inl ⟨_, rfl, by cases w <;> rfl⟩
    | some r => exact .inr ⟨r, rfl, rfl⟩
  | read x => exact .inl ⟨_, rfl, by cases x <;> rfl⟩
  | resetEvent => exact .inl ⟨_, rfl, rfl⟩

end Sys2Proof.Machine
end

