-- ==== Sys2Proof/Tests/Slice0.lean ====
section
/-! SUPPORT. Tests of one step each, whose expected values are the spec's (30_encoding.md R82, 95_test_vectors.md); the
smoke test of the well-formedness checks; and, for each statement with hypotheses, a state and operands that meet them.
Symbols: a, b, c, d, r, z are 0, 1, 2, 3, 4, 25. -/

namespace Sys2Proof.Machine.Tests

/-- The next state of an outcome, if it has one. -/
def next? : Host.Outcome State Fault Refusal → Option State
  | .next s => some s
  | _ => none

/-- The refusal of an outcome, if it is one. -/
def refusal? : Host.Outcome State Fault Refusal → Option Refusal
  | .refused r => some r
  | _ => none

/-- A small tree, `(b a)` in the notation of 95_test_vectors.md. -/
def treeBA : Node := .internal (.leaf 1) (.leaf 0)

/-- The table `{a:"0", b:"1"}`. -/
def tableAB : CodeTable := [(0, [false]), (1, [true])]

/-- A table with one code for two symbols, `{a:"0", b:"0"}` (V-DEC-21). -/
def tableTwice : CodeTable := [(0, [false]), (1, [false])]

/-- A state with every operand in place and no failure: TEXT "aaab", its FT, a tree, a table and a payload. -/
def loaded : State :=
  { State.reset with
    text := [0, 0, 0, 1]
    ft := [(0, 3), (1, 1)]
    tree := some treeBA
    ct := tableAB
    input := [0x04, 0x10] }

/-- The same with a failure recorded. -/
def stopped : State := loaded.failed 1 {}

/-! ## Decoding: the words of R82, bit by bit -/

theorem test_decode_count : decode 0b00000001 = .instr .count := by decide
theorem test_decode_build : decode 0b00000010 = .instr .build := by decide
theorem test_decode_assign : decode 0b00000011 = .instr .assign := by decide
theorem test_decode_encode : decode 0b00000100 = .instr .encode := by decide
theorem test_decode_decode : decode 0b00000101 = .instr .decode := by decide
theorem test_decode_clrerr : decode 0b00001110 = .instr .clrerr := by decide
theorem test_decode_reset : decode 0b00001111 = .instr .reset := by decide

/-- R83: the words beside the listed ones are reserved. -/
theorem test_decode_reserved :
    [0x00, 0x06, 0x0D, 0x10, 0xFF].all (fun c => decode c == .reserved c) = true := by decide

/-- No two rows of the opcode table overlap. -/
theorem test_opcode_rows_distinct :
    opcodeTable.Pairwise (fun r q => r.pattern &&& q.mask ≠ q.pattern &&& r.mask) := by decide

theorem test_decodeTableWord :
    decodeTableWord 8 0x0E = some .clrerr ∧ decodeTableWord 8 0x06 = none := by decide

/-! ## One step of each command -/

/-- V-CNT-5 "abracadabra". -/
theorem test_count_first_occurrence :
    (next? (exec .count { State.reset with text := [0, 1, 4, 0, 2, 0, 3, 0, 1, 4, 0] })).map State.ft =
      some [(0, 5), (1, 2), (4, 2), (2, 1), (3, 1)] := by decide

/-- V-CNT-1: the empty text is no failure. -/
theorem test_count_empty :
    (next? (exec .count loaded)).map State.err = some 0 ∧
    (next? (exec .count { loaded with text := [] })).map State.ft = some [] := by decide

/-- V-BLD-12: the tree of "abracadabra", `(a (b ((d c) r)))`. -/
theorem test_build_ties :
    (next? (exec .build { State.reset with ft := [(0, 5), (1, 2), (4, 2), (2, 1), (3, 1)] })).map State.tree =
      some (some (.internal (.leaf 0) (.internal (.leaf 1)
        (.internal (.internal (.leaf 3) (.leaf 2)) (.leaf 4))))) := by decide

/-- V-BLD-1 and the `TREE <- None` before the raise. -/
theorem test_build_empty :
    (next? (exec .build { loaded with ft := [], outValid := true, out := [0x08, 0x00] })).map
      (fun t => (t.err, t.tree, t.out, t.outValid)) = some (1, none, [], false) := by decide

/-- V-ASG-10. -/
theorem test_assign_paths :
    (next? (exec .assign { State.reset with tree := some (.internal (.leaf 0) (.internal (.leaf 1)
        (.internal (.internal (.leaf 3) (.leaf 2)) (.leaf 4)))) })).map (fun t => (t.ct, t.tree)) =
      some ([(0, [false]), (1, [true, false]), (3, [true, true, false, false]), (2, [true, true, false, true]),
        (4, [true, true, true])], none) := by decide

/-- V-ASG-2: a bare leaf gets "0". -/
theorem test_assign_leaf :
    (next? (exec .assign { loaded with tree := some (.leaf 25) })).map State.ct = some [(25, [false])] := by decide

/-- V-ENC-11: "abracadabra" packs to 01 5D AC 5C. -/
theorem test_encode_payload :
    (next? (exec .encode { State.reset with
      text := [0, 1, 4, 0, 2, 0, 3, 0, 1, 4, 0]
      ct := [(0, [false]), (1, [true, false]), (3, [true, true, false, false]), (2, [true, true, false, true]),
        (4, [true, true, true])] })).map (fun t => (t.out, t.outValid)) =
      some ([0x01, 0x5D, 0xAC, 0x5C], true) := by decide

/-- V-ENC-5, a whole byte of padding; and V-ENC-21, the first unknown symbol. -/
theorem test_encode_edges :
    (next? (exec .encode { loaded with text := [0, 1, 0, 1, 0, 1, 0, 1] })).map State.out = some [0x08, 0x55, 0x00] ∧
    (next? (exec .encode { loaded with text := [0, 1, 2, 0] })).map (fun t => (t.err, t.errInfo, t.out)) =
      some (2, { sub := 0, index := 2, sym := some 2 }, []) := by decide

/-- V-DEC-1 and V-DEC-2: the padding is not examined. -/
theorem test_decode_text :
    (next? (exec .decode loaded)).map (fun t => (t.dtext, t.dtextValid)) = some ([0, 0, 0, 1], true) ∧
    (next? (exec .decode { loaded with input := [0x04, 0x1F] })).map State.dtext = some [0, 0, 0, 1] := by decide

/-- V-DEC-7, V-DEC-14 and V-DEC-24: the failures, and the padding check before the table's. -/
theorem test_decode_failures :
    (next? (exec .decode { loaded with input := [0x11, 0x10, 0x00] })).map (fun t => (t.err, t.errInfo)) =
      some (4, { sub := 2 }) ∧
    (next? (exec .decode { loaded with ct := [(25, [false])], input := [0x04, 0x40] })).map
      (fun t => (t.err, t.errInfo)) = some (4, { sub := 3, index := 1 }) ∧
    (next? (exec .decode { loaded with ct := tableTwice, input := [0x09, 0x00] })).map
      (fun t => (t.err, t.errInfo)) = some (4, { sub := 2 }) := by decide

/-- V-CTL-6. -/
theorem test_clrerr :
    next? (exec .clrerr { loaded with err := 4, errInfo := { sub := 3, index := 3 } }) = some loaded := by decide

/-- V-CTL-8. -/
theorem test_reset : next? (exec .reset stopped) = some State.reset := by decide

/-- V-CTL-3: an illegal word empties the outputs; V-CTL-5: it is gated. -/
theorem test_illegal_word :
    (next? (issue 0xFF { loaded with out := [0x04, 0x10], outValid := true })).map
      (fun t => (t.err, t.errInfo, t.out, t.outValid)) = some (5, { index := 255 }, [], false) ∧
    next? (issue 0x00 stopped) = some stopped := by decide

/-- R32 on a state with every bit set that can be, and after reset. -/
theorem test_status :
    status { loaded with outValid := true, dtextValid := true, err := 5 } = 0b00001111 ∧
    status loaded = 0b00001000 ∧ status State.reset = 0x00 := by decide

/-- A step runs the word that `withFetchWord` places. -/
theorem test_step_fetch : next? (step (State.reset.withFetchWord 8 0x02)) = next? (exec .build State.reset) := by decide

/-! ## Well-formedness: each check refuses an ill-formed term -/

theorem test_ft_repeated_symbol :
    ¬ FreqTable.WellFormed [(0, 1), (0, 2)] ∧
    refusal? (hostWrite Config.unbounded (.ft [(0, 1), (0, 2)]) loaded) = some .ftRepeatedSymbol := by decide

theorem test_ct_repeated_key :
    ¬ CodeTable.KeysDistinct [(0, [false]), (0, [true])] ∧
    refusal? (hostWrite Config.unbounded (.ct [(0, [false]), (0, [true])]) loaded) = some .ctRepeatedSymbol := by
  decide

theorem test_ct_empty_code :
    ¬ CodeTable.CodesNonEmpty [(0, [])] ∧
    refusal? (hostWrite Config.unbounded (.ct [(0, [])]) loaded) = some .ctEmptyCode := by decide

/-- R190: a table that is neither injective nor prefix-free is loaded. -/
theorem test_ct_ambiguous_is_loaded :
    (next? (hostWrite Config.unbounded (.ct tableTwice) loaded)).map State.ct = some tableTwice := by decide

/-- An instance with finite bounds. -/
def bounded : Config.Params := 
  { symbolCount := none, maxTextLen := some 2, maxSyms := some 1, maxInLen := some 1 }

theorem test_bounds :
    refusal? (hostWrite bounded (.text [0, 0, 0]) loaded) = some .textOverBound ∧
    refusal? (hostWrite bounded (.ft [(0, 1), (1, 1)]) loaded) = some .ftOverBound ∧
    refusal? (hostWrite bounded (.ct tableAB) loaded) = some .ctOverBound ∧
    refusal? (hostWrite bounded (.input [0x04, 0x10]) loaded) = some .inputOverBound ∧
    (next? (hostWrite bounded (.text [0, 0]) loaded)).isSome = true := by decide

/-- An instance whose symbol type is the bit vectors of width 1 (R7, `SYM_W`). -/
def oneBit : Config.Params := { Config.unbounded with symbolCount := Config.symbolsOfWidth 1 }

/-- R7, R193 (c): a value over what is no symbol of the instance is outside the buffer's type. -/
theorem test_symbol_type :
    refusal? (hostWrite oneBit (.text [0, 1, 2]) loaded) = some .textNotSymbol ∧
    refusal? (hostWrite oneBit (.ft [(2, 1)]) loaded) = some .ftNotSymbol ∧
    refusal? (hostWrite oneBit (.ct [(2, [true])]) loaded) = some .ctNotSymbol ∧
    (next? (hostWrite oneBit (.text [0, 1]) loaded)).map State.text = some [0, 1] ∧
    (next? (hostWrite oneBit (.ct tableAB) loaded)).map State.ct = some tableAB := by decide

/-! ## Witnesses: what meets the hypotheses of each statement -/

theorem witness_DecodeEncodeAgree : Instr.WellFormed .reset ∧ decode 0x0F = .instr .reset := by decide

theorem witness_UnlistedWordsRaiseIllegalCommand :
    (∀ c ∈ [(0x00 : Byte), 0x06, 0x0D, 0x10, 0xFF],
      c.toNat = 0x00 ∨ (0x06 ≤ c.toNat ∧ c.toNat ≤ 0x0D) ∨ 0x10 ≤ c.toNat) ∧
    loaded.err = 0 ∧ stopped.err ≠ 0 := by decide

theorem witness_PackAndUnpackAreInverse :
    [true, false, false, false, false, false, false, true].length % 8 = 0 ∧
    (pack [true, false, false, false, false, false, false, true])[0]? = some 0x81 ∧
    ([0x81, 0x01] : List Byte)[1]? = some 0x01 ∧ 0 ≤ 7 ∧ 7 ≤ 7 := by decide

theorem witness_UintAndBin8AreInverse : [true, true, true, true, true, true, true, true].length = 8 := by decide

theorem witness_CountWritesFirstOccurrenceTable : loaded.err = 0 ∧ stopped.err ≠ 0 := by decide

theorem witness_CountedTableProperties :
    loaded.err = 0 ∧ exec .count loaded = .next loaded ∧ loaded.text ≠ [] ∧
    ({ loaded with ct := [] } : State).err = 0 ∧ ({ loaded with ct := [] } : State).text = loaded.text ∧
    exec .count { loaded with ct := [] } = .next { loaded with ct := [] } :=
  ⟨rfl, rfl, by decide, rfl, rfl, rfl⟩

theorem witness_SortDescIsTheStableDescendingSort :
    [((Node.leaf 1, 2) : WorkEntry), (.leaf 0, 1)].Perm [(.leaf 0, 1), (.leaf 1, 2)] ∧
    [((Node.leaf 1, 2) : WorkEntry), (.leaf 0, 1)].Pairwise (fun e f => f.2 ≤ e.2) ∧
    ∀ n : Nat, [((Node.leaf 1, 2) : WorkEntry), (.leaf 0, 1)].filter (fun e => e.2 = n) =
      [((Node.leaf 0, 1) : WorkEntry), (.leaf 1, 2)].filter (fun e => e.2 = n) := by
  refine ⟨by decide, by decide, fun n => ?_⟩
  by_cases h : 1 = n
  · subst h; rfl
  · by_cases h' : 2 = n
    · subst h'; rfl
    · simp [h, h']

/-- Also of `PriorityQueueBuildsTheSameTree`; at `k` the ends of its range. -/
theorem witness_BuildLoopRunsOncePerMerge :
    loaded.err = 0 ∧ loaded.ft ≠ [] ∧ 0 ≤ loaded.ft.length - 1 ∧ 1 ≤ loaded.ft.length - 1 := by decide

theorem witness_BuildOnEmptyTableRaises : State.reset.err = 0 ∧ State.reset.ft = [] := by decide

theorem witness_BuildCompletesWithFullTree :
    loaded.err = 0 ∧ loaded.ft ≠ [] ∧ FreqTable.WellFormed loaded.ft ∧
    Node.internal (.leaf 1) (.leaf 0) ∈ treeBA.subtrees ∧
    ({ loaded with text := [] } : State).err = 0 ∧ ({ loaded with text := [] } : State).ft = loaded.ft := by decide

theorem witness_OneEntryTableGivesBareLeaf :
    ({ loaded with ft := [(25, 0)] } : State).err = 0 ∧ ({ loaded with ft := [(25, 0)] } : State).ft = [(25, 0)] ∧
    exec .build { loaded with ft := [(25, 0)] } = .next { loaded with ft := [(25, 0)], tree := some (.leaf 25) } :=
  ⟨rfl, rfl, rfl⟩

theorem witness_AssignListsTheLeafPaths :
    loaded.err = 0 ∧ loaded.tree = some (.internal (.leaf 1) (.leaf 0)) ∧
    ({ loaded with tree := some (.leaf 25) } : State).tree = some (.leaf 25) := by decide

theorem witness_AssignWithoutTreeRaises :
    (State.reset.err = 0 ∧ State.reset.tree = none) ∧
    (∃ t, exec .build State.reset = .next t ∧ t.err ≠ 0) ∧
    loaded.err = 0 ∧ loaded.tree ≠ none ∧ ∃ t, exec .assign loaded = .next t :=
  ⟨⟨rfl, rfl⟩, ⟨_, rfl, by decide⟩, rfl, by decide, _, rfl⟩

theorem witness_AssignedTableIsPrefixFreeAndComplete :
    (loaded.err = 0 ∧ loaded.tree = some treeBA ∧ treeBA.leaves.Nodup ∧
      exec .assign loaded = .next { loaded with ct := [(1, [false]), (0, [true])], tree := none }) ∧
    ((Node.leaf 25).leaves.Nodup ∧ exec .assign { loaded with tree := some (.leaf 25) } =
      .next { loaded with ct := [(25, [false])], tree := none }) ∧
    ∃ u, exec .decode { loaded with ct := [(1, [false]), (0, [true])], tree := none } = .next u :=
  ⟨⟨rfl, rfl, by decide, rfl⟩, ⟨by decide, rfl⟩, _, rfl⟩

theorem codes_of_loaded : CodesOfText tableAB [0, 0, 0, 1] [[false], [false], [false], [true]] := by
  simp [CodesOfText, tableAB]

theorem witness_EncodeCompletesWithPayload :
    loaded.err = 0 ∧ CodeTable.KeysDistinct loaded.ct ∧
    CodesOfText loaded.ct loaded.text [[false], [false], [false], [true]] :=
  ⟨rfl, by decide, codes_of_loaded⟩

theorem witness_EncodeRaisesAtFirstUnknownSymbol :
    (({ loaded with text := [0, 1, 2, 0] } : State).err = 0 ∧ FirstUnknown tableAB [0, 1, 2, 0] 2 2) ∧
    (({ loaded with ct := [] } : State).ct = [] ∧ loaded.text = 0 :: [0, 0, 1]) ∧
    ∃ t, runEvents Config.unbounded (commands [.count, .build, .assign, .encode]) loaded = .next t :=
  ⟨by decide, by decide, _, rfl⟩

/-- `len` is 4, and 8 where a whole byte of padding is written. -/
theorem witness_EncodeOutputSizeAndLastByte :
    (loaded.err = 0 ∧ CodeTable.KeysDistinct loaded.ct ∧
      CodesOfText loaded.ct loaded.text [[false], [false], [false], [true]] ∧
      exec .encode loaded = .next { loaded with out := [0x04, 0x10], outValid := true }) ∧
    (CodesOfText [(0, [false, true, false, true, false, true, false, true])] [0]
        [[false, true, false, true, false, true, false, true]] ∧
      8 - [[false, true, false, true, false, true, false, true]].flatten.length % 8 = 8) :=
  ⟨⟨rfl, by decide, codes_of_loaded, rfl⟩, by simp [CodesOfText], by decide⟩

theorem witness_EncodeOfEmptyText : State.reset.err = 0 ∧ State.reset.text = [] := by decide

theorem witness_PadLengthIsLeastStrictRoundUp : 7 < 8 ∧ 8 % 8 = 0 ∧ 8 < 16 ∧ 16 % 8 = 0 := by decide

/-- One stream for each clause, and the header equal to the bits after it. -/
theorem witness_DecodeChecksInOrder :
    State.reset.input = [] ∧
    (8 * [(0x10 : Byte)].length < (0x09 : Byte).toNat) ∧
    ((0x08 : Byte).toNat ≤ 8 * [(0x10 : Byte)].length ∧ ¬ CodeTable.Injective tableTwice) ∧
    ((0x08 : Byte).toNat ≤ 8 * [(0x10 : Byte)].length ∧ CodeTable.Injective tableAB) := by decide

/-- A parse with nothing left over, and one that leaves a candidate. -/
theorem witness_DecodeFollowsTheGreedyParse :
    (loaded.err = 0 ∧ loaded.input = 0x04 :: [0x10] ∧ (0x04 : Byte).toNat ≤ 8 * [(0x10 : Byte)].length ∧
      CodeTable.Injective loaded.ct) ∧
    GreedyParse tableAB (streamBody 0x04 [0x10]) [(0, [false]), (0, [false]), (0, [false]), (1, [true])] [] ∧
    GreedyParse [(25, [false])] (streamBody 0x07 [0x80]) [] [true] :=
  ⟨by decide, ⟨by decide, by decide, by decide⟩, ⟨by decide, by decide, by decide⟩⟩

theorem witness_StrippedBitsAreNotExamined :
    (0x04 : Byte).toNat ≤ 8 * [(0x10 : Byte)].length ∧ [(0x1F : Byte)].length = [(0x10 : Byte)].length ∧
    (unpack [0x1F]).take (8 * [(0x10 : Byte)].length - (0x04 : Byte).toNat) =
      (unpack [0x10]).take (8 * [(0x10 : Byte)].length - (0x04 : Byte).toNat) ∧
    (∃ t, exec .decode { loaded with input := [0x04, 0x10] } = .next t) ∧
    ∃ t, exec .decode { loaded with input := [0x04, 0x1F] } = .next t :=
  ⟨by decide, rfl, by decide, ⟨_, rfl⟩, _, rfl⟩

theorem witness_DecodeOfEmptyBodyCompletes :
    (0x08 : Byte).toNat = 8 * [(0x00 : Byte)].length ∧ (0x00 : Byte).toNat = 8 * ([] : List Byte).length ∧
    CodeTable.Injective loaded.ct ∧ loaded.err = 0 := by decide

theorem witness_LongerCodeIsNeverEmitted :
    ∃ t, exec .decode loaded = .next t ∧ loaded.err = 0 ∧ t.err = 0 ∧ 1 ∈ t.dtext := ⟨_, rfl, by decide⟩

/-- With no bound, and with a bound equal to the size of the payload. -/
theorem witness_DecodeReturnsTheEncodedText :
    loaded.err = 0 ∧ loaded.text ≠ [] ∧ CodeTable.WellFormed loaded.ct ∧ CodeTable.PrefixFree loaded.ct ∧
    (∀ x ∈ loaded.text, CodeTable.HasSymbol loaded.ct x) ∧
    (∀ u, runEvents { Config.unbounded with maxInLen := some 2 } (commands [.count, .build, .assign, .encode]) loaded
      = .next u → withinBound (some 2) u.out.length = true) ∧
    (∀ u, exec .encode loaded = .next u → withinBound (some 2) u.out.length = true) := by
  refine ⟨rfl, by decide, by decide, by decide, by decide, fun u h => ?_, fun u h => ?_⟩
  · have : runEvents { Config.unbounded with maxInLen := some 2 } (commands [.count, .build, .assign, .encode]) loaded
        = .next { loaded with ct := [(1, [false]), (0, [true])], tree := none, out := [0x04, 0xE0], outValid := true } :=
      rfl
    rw [this] at h; cases h; rfl
  · have : exec .encode loaded = .next { loaded with out := [0x04, 0x10], outValid := true } := rfl
    rw [this] at h; cases h; rfl

theorem witness_FunctionalNotationRoundTrips : ([0, 0, 0, 1] : List Symbol) ≠ [] ∧ loaded.err = 0 := by decide

theorem witness_ClrerrClearsOnlyTheError :
    loaded.err = 0 ∧ loaded.errInfo = {} ∧ ∃ t, exec .clrerr stopped = .next t := ⟨rfl, rfl, _, rfl⟩

theorem witness_GateIgnoresAllButClrerrAndReset :
    stopped.err ≠ 0 ∧ (0x0D : Byte) ≠ 0x0E ∧ (0x10 : Byte) ≠ 0x0E ∧ (0x0D : Byte) ≠ 0x0F ∧ (0x10 : Byte) ≠ 0x0F ∧
    ∃ t, hostWrite Config.unbounded (.text [1]) { stopped with err := 0, errInfo := {} } = .next t :=
  ⟨by decide, by decide, by decide, by decide, by decide, _, rfl⟩

theorem witness_OutOfOrderCommands :
    State.reset.err = 0 ∧ State.reset.text = [] ∧ State.reset.ft = [] ∧ State.reset.tree = none ∧
    State.reset.ct = [] ∧ State.reset.input = [] ∧ loaded.text = 0 :: [0, 0, 1] ∧
    loaded.input = 0x04 :: [0x10] ∧ (0x04 : Byte).toNat < 8 * [(0x10 : Byte)].length ∧
    (0x07 : Byte).toNat < 8 * [(0x10 : Byte)].length := by decide

/-- Also of `CompressLeavesThePayload`. -/
theorem witness_CodetableDerivesTheTableOfTheText :
    loaded.err = 0 ∧ loaded.text ≠ [] ∧ State.reset.err = 0 ∧ State.reset.text = [] := by decide

/-- Also of `FailureKindsCausesAndDetails`: a raise of each kind. -/
theorem witness_RaiseEmptiesOutputsAndKeepsTheRest :
    (∃ t, issue 0x02 State.reset = .next t ∧ t.err = 1) ∧ (∃ t, issue 0x03 State.reset = .next t ∧ t.err = 1) ∧
    (∃ t, issue 0x04 { loaded with ct := [] } = .next t ∧ t.err = 2) ∧
    (∃ t, issue 0x05 { loaded with ct := tableTwice } = .next t ∧ t.err = 3) ∧
    (∃ t, issue 0x05 { loaded with input := [] } = .next t ∧ t.err = 4) ∧
    (∃ t, issue 0x00 loaded = .next t ∧ t.err = 5) :=
  ⟨⟨_, rfl, rfl⟩, ⟨_, rfl, rfl⟩, ⟨_, rfl, rfl⟩, ⟨_, rfl, rfl⟩, ⟨_, rfl, rfl⟩, _, rfl, rfl⟩

theorem witness_FailureKindsCausesAndDetails :
    loaded.err = 0 ∧ loaded.errInfo = {} ∧ (∃ t, issue 0x01 loaded = .next t ∧ t.err = 0) ∧
    ∃ t, hostWrite Config.unbounded (.text [1]) loaded = .next t :=
  ⟨rfl, rfl, ⟨_, rfl, rfl⟩, _, rfl⟩

theorem witness_FirstFailureIsKept :
    stopped.err ≠ 0 ∧ HostEvent.cmd 0x05 ≠ .cmd 0x0E ∧ HostEvent.cmd 0x05 ≠ .cmd 0x0F ∧ HostEvent.cmd 0x05 ≠ .resetEvent ∧
    applyEvent Config.unbounded (.cmd 0x05) stopped = .next stopped :=
  ⟨by decide, by decide, by decide, by decide, rfl⟩

theorem witness_RetryFailsTheSameWay :
    ∃ t u, State.reset.err = 0 ∧ exec .build State.reset = .next t ∧ t.err ≠ 0 ∧ exec .clrerr t = .next u :=
  ⟨_, _, rfl, rfl, by decide, rfl⟩

/-- A word of each row of R63's table, from a state without and with a failure. -/
theorem witness_CommandsTouchOnlyTheirBuffers :
    loaded.err = 0 ∧ stopped.err ≠ 0 ∧
    (∀ c ∈ [(0x01 : Byte), 0x02, 0x03, 0x04, 0x05, 0x0E, 0x0F, 0x00], ∃ t, issue c loaded = .next t) ∧
    (∀ i, decode 0x00 ≠ .instr i) ∧ decode 0x01 ≠ .instr .clrerr ∧ decode 0x01 ≠ .instr .reset :=
  ⟨rfl, by decide, fun c _ => issue_total c loaded, fun i => by cases i <;> decide, by decide, by decide⟩

/-- Two states that agree on no more than what the commands read, and two in which each of the four commands that can raise
does, whose `ERR_INFO` before it differ. -/
theorem witness_CommandsReadOnlyTheirOperands :
    loaded.err = 0 ∧ ({ loaded with dtext := [1], dtextValid := true } : State).err = 0 ∧
    (∀ i, (∃ t, exec i loaded = .next t) ∧
      ∃ t, exec i { loaded with dtext := [1], dtextValid := true } = .next t) ∧
    loaded.text = ({ loaded with dtext := [1], dtextValid := true } : State).text ∧
    ∀ i ∈ [Instr.build, .assign, .encode, .decode],
      (∃ t, exec i { State.reset with text := [2] } = .next t ∧ t.err ≠ 0) ∧
      ∃ t, exec i { State.reset with text := [2], errInfo := { index := 7 } } = .next t ∧ t.err ≠ 0 := by
  refine ⟨rfl, rfl, fun i => ⟨exec_total i _, exec_total i _⟩, rfl, fun i hi => ?_⟩
  simp only [List.mem_cons, List.not_mem_nil, or_false] at hi
  rcases hi with rfl | rfl | rfl | rfl <;> exact ⟨⟨_, rfl, by decide⟩, _, rfl, by decide⟩

theorem witness_ReissueIsIdempotentButForAssign :
    loaded.err = 0 ∧ ∀ i ∈ [Instr.count, .build, .assign, .encode, .decode],
      ∃ t, exec i loaded = .next t ∧ t.err = 0 := by
  refine ⟨rfl, fun i hi => ?_⟩
  simp only [List.mem_cons, List.not_mem_nil, or_false] at hi
  rcases hi with rfl | rfl | rfl | rfl | rfl <;> exact ⟨_, rfl, rfl⟩

theorem witness_WorstCaseSizes :
    loaded.err = 0 ∧ loaded.tree = some (.internal (.leaf 1) (.leaf 0)) ∧ (∃ t, exec .assign loaded = .next t) ∧
    loaded.text ≠ [] ∧ (∃ t, runEvents Config.unbounded (commands compress) loaded = .next t) ∧
    ∃ t, exec .decode loaded = .next t ∧ t.err = 0 :=
  ⟨rfl, rfl, ⟨_, rfl⟩, by decide, ⟨_, rfl⟩, _, rfl, rfl⟩

/-- Values at the bounds, just over them, and of the wrong type. -/
theorem witness_HostWritesReplaceOneBufferOrAreRefused :
    allSymbols (some 2) [0, 1] = true ∧ allSymbols (some 2) [0, 2] = false ∧ allSymbols none [0, 2] = true ∧
    withinBound (some 2) [0, 0].length = true ∧ withinBound (some 2) [0, 0, 0].length = false ∧
    allSymbols (some 2) (tableTwice.map Prod.fst) = true ∧
    FreqTable.WellFormed [(0, 1)] ∧ withinBound (some 1) [(0, 1)].length = true ∧
    ¬ (allSymbols (some 2) [2] = true ∧ FreqTable.WellFormed [(2, 1)] ∧ withinBound none [(2, 1)].length = true) ∧
    ¬ (allSymbols none [0, 0] = true ∧ FreqTable.WellFormed [(0, 1), (0, 2)] ∧ withinBound none [(0, 1), (0, 2)].length = true) ∧
    CodeTable.WellFormed tableTwice ∧ withinBound none tableTwice.length = true ∧
    ¬ (allSymbols none [0] = true ∧ CodeTable.WellFormed [(0, [])] ∧ withinBound none [(0, ([] : Code))].length = true) ∧
    withinBound (some 1) [(0x00 : Byte)].length = true ∧ withinBound (some 1) [(0x00 : Byte), 0x00].length = false := by
  decide

theorem witness_StepRunsTheDecodedCommand :
    ({ loaded with pending := [.cmd 0x02] } : State).pending = .cmd 0x02 :: [] ∧ decode 0x02 = .instr .build ∧
    decode 0x00 = .reserved 0x00 ∧ decodeTableWord 8 0x0F = some .reset := by decide

theorem witness_StepTakesTheNextHostAction :
    ({ loaded with pending := [.write (.text [1])] } : State).pending = .write (.text [1]) :: [] ∧
    ({ loaded with pending := [.read .status] } : State).pending = .read .status :: [] ∧
    ({ loaded with pending := [.resetEvent] } : State).pending = .resetEvent :: [] ∧ loaded.pending = [] := by decide

theorem witness_RunIsTheStepIterated :
    ∀ w, HostEvent.write (.text [1]) = .write w → writeRefusal Config.unbounded loaded.out w = none := by
  rintro w h; cases h; rfl

/-- The invariant holds, over a finite symbol type, of a state with a table, a tree and a payload, and the state takes a
step. -/
theorem witness_StepKeepsTheInvariant :
    State.Inv oneBit { loaded with out := [0x04, 0x10], outValid := true, pending := [.cmd 0x05] } ∧
    ∃ t, stepWith oneBit { loaded with out := [0x04, 0x10], outValid := true, pending := [.cmd 0x05] }
      = .next t :=
  ⟨⟨rfl, rfl, fun root h => by cases h; decide, rfl, rfl, fun x h => (by cases h), rfl, rfl, by decide, by decide,
    fun root h => by cases h; decide, by decide, by decide, by decide,
    by decide, by decide⟩, _, rfl⟩

theorem witness_OnlyEqualityOfSymbolsIsUsed : Function.Injective (fun x : Symbol => x + 1) :=
  fun _ _ h => Nat.succ.inj h

end Sys2Proof.Machine.Tests
end

section
/-! PROOF. Bits, bytes and the sort of 00_scope.md: `uint` is the weighted sum of R11, `uint` and `bin8` are inverse
(R87 (f)), and `sort_desc` is the one stable descending order of R13. -/

namespace Sys2Proof.Machine

/-- The recursion of `uint` on the first bit is the weighted sum of R11. -/
theorem uint_eq_weighted_sum (s : BitSeq) :
    uint s = ((List.range s.length).map fun i => (s.getD i false).toNat * 2 ^ (s.length - 1 - i)).sum := by
  induction s with
  | nil => rfl
  | cons b s ih =>
    simp [uint, ih, List.range_succ_eq_map, Function.comp_def, Nat.sub_sub, Nat.add_comm]

/-- Settles O5: the weighted sum by induction on the bits, the two inverses from the laws of `uint` and `bin8`. -/
theorem uintAndBin8AreInverse : Obligations.UintAndBin8AreInverse :=
  ⟨uint_eq_weighted_sum, fun v => ⟨bin8_length v, uint_bin8 v⟩,
    fun s h => ⟨by simpa [h] using uint_lt s, bin8_uint h⟩⟩

/-- Settles O8: insertion keeps the entries, their order by weight and the order within each weight, and a sequence
with these three is unique. -/
theorem sortDescIsTheStableDescendingSort : Obligations.SortDescIsTheStableDescendingSort := by
  intro w
  refine ⟨sortDesc_perm w, sortDesc_sorted w, sortDesc_filter w, fun v hperm hsorted hstable => ?_⟩
  have hpermSort : v.Perm (sortDesc w) := hperm.trans (sortDesc_perm w).symm
  exact sorted_unique hpermSort hsorted (sortDesc_sorted w) fun n => (hstable n).trans (sortDesc_filter w n).symm

end Sys2Proof.Machine
end

section
/-! PROOF. The invariant of a run (10_state.md R28 to R30, R37 (d); 60_exceptions.md R206) is kept: by each write of a
state item whose value has the item's type, by each command and command word, by each host action, and so by the
step. -/

namespace Sys2Proof.Machine

/-! ## The writes of the state items -/

section Writes
variable {p : Config.Params} {s : State}

/-- The host's actions are no item of the block. -/
theorem setPending_keeps_inv (h : s.Inv p) (v : List HostEvent) : (s.setPending v).Inv p := { h with }

/-- What a host read returned is no item of the block. -/
theorem setAnswer_keeps_inv (h : s.Inv p) (v : Option HostValue) : (s.setAnswer v).Inv p := { h with }

theorem setText_keeps_inv (h : s.Inv p) {v : List Symbol} (hsym : allSymbols p.symbolCount v = true)
    (hbound : withinBound p.maxTextLen v.length = true) : (s.setText v).Inv p :=
  { h with textSymbols := hsym, textBound := hbound }

theorem setFt_keeps_inv (h : s.Inv p) {v : FreqTable} (hsym : allSymbols p.symbolCount (v.map Prod.fst) = true)
    (hwf : FreqTable.WellFormed v) : (s.setFt v).Inv p :=
  { h with ftSymbols := hsym, ftDistinct := hwf }

theorem setCt_keeps_inv (h : s.Inv p) {v : CodeTable} (hsym : allSymbols p.symbolCount (v.map Prod.fst) = true)
    (hwf : CodeTable.WellFormed v) : (s.setCt v).Inv p :=
  { h with ctSymbols := hsym, ctTable := hwf }

theorem clearTree_keeps_inv (h : s.Inv p) : (s.setTree none).Inv p :=
  { h with treeSymbols := by simp, treeLeaves := by simp }

theorem setTree_keeps_inv (h : s.Inv p) {root : Node} (hsym : allSymbols p.symbolCount root.leaves = true)
    (hnodup : root.leaves.Nodup) : (s.setTree (some root)).Inv p :=
  { h with
    treeSymbols := by rintro _ ⟨⟩; exact hsym
    treeLeaves := by rintro _ ⟨⟩; exact hnodup }

theorem setInput_keeps_inv (h : s.Inv p) {v : List Byte} (hbound : withinBound p.maxInLen v.length = true) :
    (s.setInput v).Inv p :=
  { h with inputBound := hbound }

/-- A valid `OUT` is written only while no failure is recorded. -/
theorem setOut_keeps_inv (h : s.Inv p) (herr : s.err = 0) {v : List Byte} (hshape : PayloadShape v) :
    (s.setOut v true).Inv p :=
  { h with
    outEmpty := by simp
    outPayload := fun _ => hshape
    failedOutputs := fun hne => absurd herr hne }

/-- A valid `DTEXT` is written only while no failure is recorded. -/
theorem setDtext_keeps_inv (h : s.Inv p) (herr : s.err = 0) {v : List Symbol}
    (hsym : allSymbols p.symbolCount v = true) : (s.setDtext v true).Inv p :=
  { h with
    dtextSymbols := hsym
    dtextEmpty := by simp
    failedOutputs := fun hne => absurd herr hne }

/-- A raise empties both outputs (R206), so what is left to say is of its detail. -/
theorem failed_keeps_inv (h : s.Inv p) {c : BitVec 3} {i : ErrInfo} (hfits : InfoFits c i)
    (hsym : ∀ x, i.sym = some x → isSymbol p.symbolCount x = true) : (s.failed c i).Inv p :=
  { h with
    dtextSymbols := rfl
    infoSymbol := hsym
    outEmpty := fun _ => rfl
    outPayload := by simp
    dtextEmpty := fun _ => rfl
    failedOutputs := fun _ => ⟨rfl, rfl⟩
    info := hfits }

/-- The return from a failure. -/
theorem clearError_keeps_inv (h : s.Inv p) : (clearError s).Inv p :=
  { h with
    infoSymbol := by simp
    failedOutputs := by simp
    info := .inl ⟨rfl, rfl⟩ }

/-- The reset values meet the invariant whatever the state was. -/
theorem resetItems_inv (p : Config.Params) (s : State) : (resetItems s).Inv p where
  textSymbols := rfl
  ftSymbols := rfl
  treeSymbols := by simp
  ctSymbols := rfl
  dtextSymbols := rfl
  infoSymbol := by simp
  textBound := by cases p.maxTextLen <;> simp [withinBound]
  inputBound := by cases p.maxInLen <;> simp [withinBound]
  ftDistinct := List.nodup_nil
  ctTable := ⟨List.nodup_nil, by simp⟩
  treeLeaves := by simp
  outEmpty := fun _ => rfl
  outPayload := by simp
  dtextEmpty := fun _ => rfl
  failedOutputs := by simp
  info := .inl ⟨rfl, rfl⟩

/-- A gated command keeps the invariant if its meaning keeps it while no failure is recorded (R183). -/
theorem gate_keeps_inv {f : State → State} (h : s.Inv p) (hf : s.err = 0 → (f s).Inv p) : (gate f s).Inv p := by
  obtain ⟨herr, heq⟩ | ⟨-, heq⟩ := gate_cases f s <;> rw [heq]
  · exact hf herr
  · exact h

end Writes

/-! ## The values the commands write -/

/-- COUNT's symbols are those of the text (R100). -/
theorem countText_keys_subset (text : List Symbol) : (countText text).map Prod.fst ⊆ text := by
  intro x hx
  rw [countText_eq, List.map_map] at hx
  exact (firstOccurrences_mem text x).1 (by simpa [Function.comp_def] using hx)

/-- What a greedy parse emits are keys of the table (R164). -/
theorem greedyParse_symbols_subset {ct : CodeTable} {body : BitSeq} {entries : List (Symbol × Code)} {cand : BitSeq}
    (hparse : GreedyParse ct body entries cand) : entries.map Prod.fst ⊆ ct.map Prod.fst :=
  List.map_subset _ fun e he => (hparse.matched e he).1

/-- What ENCODE writes has the shape of a payload (R71, R147, R148). -/
theorem payload_shape (body : BitSeq) : PayloadShape (pack (payloadBits body)) := by
  obtain ⟨rest, hcons, hlen, hbits⟩ := payload_cons body
  obtain ⟨hlow, hhigh, -⟩ := padLength_bounds body.length
  have hhead : ((pack (payloadBits body)).headD 0).toNat = padLength body.length := by
    rw [hcons, List.headD_cons, BitVec.toNat_ofNat, Nat.mod_eq_of_lt (by omega)]
  rw [PayloadShape, hhead]
  refine ⟨?_, hlow, hhigh, ?_⟩ <;> rw [hcons]
  · rw [List.length_cons]; omega
  · rw [unpack_cons, hbits, ← List.append_assoc]
    exact List.suffix_append _ _

/-! ## The commands -/

section Commands
variable {p : Config.Params} {s : State}

theorem countBody_keeps_inv (h : s.Inv p) : (s.setFt (countText s.text)).Inv p :=
  setFt_keeps_inv h (allSymbols_subset h.textSymbols (countText_keys_subset _)) (countText_wf _)

theorem buildBody_keeps_inv (h : s.Inv p) : (buildBody s).Inv p := by
  obtain ⟨-, heq⟩ | ⟨hne, root, hroot, heq⟩ := buildBody_cases s <;> rw [heq]
  · exact clearTree_keeps_inv (failed_keeps_inv h (by decide) (by simp))
  · obtain ⟨root', hroot', hperm⟩ := buildTree_leaves hne
    obtain rfl : root = root' := Option.some.inj (hroot.symm.trans hroot')
    exact setTree_keeps_inv h (allSymbols_subset h.ftSymbols hperm.subset) (hperm.nodup_iff.2 h.ftDistinct)

theorem assignBody_keeps_inv (h : s.Inv p) : (assignBody s).Inv p := by
  obtain ⟨-, heq⟩ | ⟨root, hroot, heq⟩ := assignBody_cases s <;> rw [heq]
  · exact failed_keeps_inv h (by decide) (by simp)
  · refine clearTree_keeps_inv (setCt_keeps_inv h ?_ (codesOf_wf (h.treeLeaves root hroot)))
    rw [codesOf_keys]
    exact h.treeSymbols root hroot

theorem encodeBody_keeps_inv (h : s.Inv p) (herr : s.err = 0) : (encodeBody s).Inv p := by
  obtain ⟨codes, -, heq⟩ | ⟨i, x, ⟨hx, -, -⟩, heq⟩ := encodeBody_cases s <;> rw [heq]
  · exact setOut_keeps_inv h herr (payload_shape _)
  · have hsym : isSymbol p.symbolCount x = true := allSymbols_iff.1 h.textSymbols x (List.mem_of_getElem? hx)
    exact failed_keeps_inv h (by simp [InfoFits]) (by rintro _ ⟨⟩; exact hsym)

theorem decodeBody_keeps_inv (h : s.Inv p) (herr : s.err = 0) : (decodeBody s).Inv p := by
  obtain ⟨-, heq⟩ | ⟨_, _, -, ⟨-, heq⟩ | ⟨-, -, heq⟩ | ⟨-, -, es, cand, hparse, ⟨-, heq⟩ | ⟨-, heq⟩⟩⟩ :=
    decodeBody_cases s <;> rw [heq]
  · exact failed_keeps_inv h (by decide) (by simp)
  · exact failed_keeps_inv h (by decide) (by simp)
  · exact failed_keeps_inv h (by decide) (by simp)
  · exact setDtext_keeps_inv h herr (allSymbols_subset h.ctSymbols (greedyParse_symbols_subset hparse))
  · exact failed_keeps_inv h (by simp [InfoFits]) (by simp)

/-- A word that names no command records itself (R182, R218). -/
theorem illegalCommand_keeps_inv (h : s.Inv p) {c : Byte} (hc : decode c = .reserved c) :
    (illegalCommand c s).Inv p := by
  refine gate_keeps_inv h fun _ => failed_keeps_inv h ?_ (by simp)
  have hlt : c.toNat < 256 := c.isLt
  simp [InfoFits, FailKind.code, hc, hlt, Decoded.toInstr?]

/-- Every command keeps the invariant. -/
theorem exec_keeps_inv (h : s.Inv p) {i : Instr} {t : State} (hexec : exec i s = .next t) : t.Inv p := by
  cases i <;> cases hexec
  case count => exact gate_keeps_inv h fun _ => countBody_keeps_inv h
  case build => exact gate_keeps_inv h fun _ => buildBody_keeps_inv h
  case assign => exact gate_keeps_inv h fun _ => assignBody_keeps_inv h
  case encode => exact gate_keeps_inv h (encodeBody_keeps_inv h)
  case decode => exact gate_keeps_inv h (decodeBody_keeps_inv h)
  case clrerr => exact clearError_keeps_inv h
  case reset => exact resetItems_inv p s

/-! ## The host's actions and the step -/

/-- Every command word keeps the invariant. -/
theorem issue_keeps_inv (h : s.Inv p) {c : Byte} {t : State} (hissue : issue c s = .next t) : t.Inv p := by
  cases hc : decode c with
  | instr i => exact exec_keeps_inv h ((issue_of_instr hc s).symm.trans hissue)
  | reserved op =>
    obtain rfl := decode_reserved hc
    rw [issue_of_reserved hc] at hissue
    cases hissue
    exact illegalCommand_keeps_inv h hc

/-- A host write that is not refused writes a value of the buffer's type (R188 to R191). -/
theorem hostWrite_keeps_inv (h : s.Inv p) {w : HostWrite} {t : State} (hwrite : hostWrite p w s = .next t) :
    t.Inv p := by
  obtain ⟨hok, rfl⟩ := hostWrite_next hwrite
  cases w with
  | text v =>
    obtain ⟨hsym, hbound⟩ := writeRefusal_text.1 hok
    exact setText_keeps_inv h hsym hbound
  | ft v =>
    obtain ⟨hsym, hwf, -⟩ := writeRefusal_ft.1 hok
    exact setFt_keeps_inv h hsym hwf
  | ct v =>
    obtain ⟨hsym, hwf, -⟩ := writeRefusal_ct.1 hok
    exact setCt_keeps_inv h hsym hwf
  | input v => exact setInput_keeps_inv h (by simpa [writeRefusal] using hok)
  | inputFromOut => exact setInput_keeps_inv h (by simpa [writeRefusal] using hok)

/-- Every element of a run keeps the invariant (R244). -/
theorem applyEvent_keeps_inv (h : s.Inv p) {e : HostEvent} {t : State} (happly : applyEvent p e s = .next t) :
    t.Inv p := by
  cases e with
  | cmd c => exact issue_keeps_inv h happly
  | write w => exact hostWrite_keeps_inv h happly
  | read x => cases happly; exact setAnswer_keeps_inv h _
  | resetEvent => cases happly; exact resetItems_inv p s

/-- The step applies the host's next action, if there is one. -/
theorem stepWith_keeps_inv (h : s.Inv p) {t : State} (hstep : stepWith p s = .next t) : t.Inv p := by
  unfold stepWith takeEvent at hstep
  split at hstep
  · cases hstep; exact h
  · exact applyEvent_keeps_inv (setPending_keeps_inv h _) hstep

end Commands

/-- Settles O52, from the invariant of each element of a run. -/
theorem stepKeepsTheInvariant : Obligations.StepKeepsTheInvariant :=
  fun _ _ _ h hstep => stepWith_keeps_inv h hstep

end Sys2Proof.Machine
end

section
/-! PROOF. Renaming the symbols by an injective map commutes with every command (00_scope.md R7): with the writes of the
state items and the raise, then with the algorithm of each command, and so with `exec`. Injectivity is used where symbols
are compared: in COUNT's table, in the look-up of a code, and in the test for an ambiguous table. -/

namespace Sys2Proof.Machine

/-! ## Renaming a table, a working collection, and what a scan comes to -/

/-- A table with its keys renamed. -/
def renameKeys {α : Type} (f : Symbol → Symbol) (t : List (Symbol × α)) : List (Symbol × α) :=
  t.map fun e => (f e.1, e.2)

/-- `ERR_INFO` with its symbol renamed. -/
def ErrInfo.rename (f : Symbol → Symbol) (i : ErrInfo) : ErrInfo := { i with sym := i.sym.map f }

/-- An entry of BUILD's collection with its node renamed. -/
def renameEntry (f : Symbol → Symbol) (e : WorkEntry) : WorkEntry := (e.1.rename f, e.2)

/-- What R160's algorithm comes to, with its symbols renamed. -/
def StreamResult.rename (f : Symbol → Symbol) : StreamResult → StreamResult
  | .text v => .text (v.map f)
  | .noHeader => .noHeader
  | .padTooLarge => .padTooLarge
  | .ambiguousTable => .ambiguousTable
  | .midCode start => .midCode start

section Keys
variable {α : Type} (f : Symbol → Symbol)

@[simp] theorem renameKeys_nil : renameKeys f ([] : List (Symbol × α)) = [] := rfl

@[simp] theorem renameKeys_cons (e : Symbol × α) (t : List (Symbol × α)) :
    renameKeys f (e :: t) = (f e.1, e.2) :: renameKeys f t := rfl

@[simp] theorem renameKeys_append (t u : List (Symbol × α)) :
    renameKeys f (t ++ u) = renameKeys f t ++ renameKeys f u := List.map_append

@[simp] theorem renameKeys_length (t : List (Symbol × α)) : (renameKeys f t).length = t.length := List.length_map _

end Keys

/-! ## The items of a renamed state, and the writes of them -/

section State
variable (f : Symbol → Symbol) (s : State)

@[simp] theorem State.rename_text : (s.rename f).text = s.text.map f := rfl
@[simp] theorem State.rename_ft : (s.rename f).ft = renameKeys f s.ft := rfl
@[simp] theorem State.rename_tree : (s.rename f).tree = s.tree.map (Node.rename f) := rfl
@[simp] theorem State.rename_ct : (s.rename f).ct = renameKeys f s.ct := rfl
@[simp] theorem State.rename_input : (s.rename f).input = s.input := rfl
@[simp] theorem State.rename_err : (s.rename f).err = s.err := rfl

theorem setFt_rename (v : FreqTable) : (s.setFt v).rename f = (s.rename f).setFt (renameKeys f v) := rfl

theorem setTree_rename (v : Option Node) :
    (s.setTree v).rename f = (s.rename f).setTree (v.map (Node.rename f)) := rfl

theorem setCt_rename (v : CodeTable) : (s.setCt v).rename f = (s.rename f).setCt (renameKeys f v) := rfl

theorem setOut_rename (v : List Byte) (b : Bool) : (s.setOut v b).rename f = (s.rename f).setOut v b := rfl

theorem setDtext_rename (v : List Symbol) (b : Bool) :
    (s.setDtext v b).rename f = (s.rename f).setDtext (v.map f) b := rfl

theorem raise_rename (k : FailKind) (i : ErrInfo) :
    (raise k i s).rename f = raise k (i.rename f) (s.rename f) := rfl

theorem clearError_rename : clearError (s.rename f) = (clearError s).rename f := rfl

theorem resetItems_rename : resetItems (s.rename f) = (resetItems s).rename f := rfl

/-- The gate reads no symbol (R183). -/
theorem gate_rename {g : State → State} (hg : g (s.rename f) = (g s).rename f) :
    gate g (s.rename f) = (gate g s).rename f := by
  unfold gate
  rw [State.rename_err]
  split
  · exact hg
  · rfl

end State

/-! ## COUNT -/

/-- A symbol is counted at the entry that is its own, which an injective renaming does not move. -/
theorem countSymbol_rename {f : Symbol → Symbol} (hf : f.Injective) (ft : FreqTable) (x : Symbol) :
    countSymbol (renameKeys f ft) (f x) = renameKeys f (countSymbol ft x) := by
  induction ft with
  | nil => rfl
  | cons e ft ih =>
    obtain ⟨t, n⟩ := e
    simp only [renameKeys_cons, countSymbol, hf.eq_iff]
    split
    · rfl
    · rw [ih, renameKeys_cons]

theorem countText_rename {f : Symbol → Symbol} (hf : f.Injective) (text : List Symbol) :
    countText (text.map f) = renameKeys f (countText text) := by
  rw [countText, List.foldl_map]
  exact List.foldl_hom (renameKeys f) (g₂ := fun ft x => countSymbol ft (f x)) (init := []) (countSymbol_rename hf)

/-! ## BUILD: the sort and the merges read the weights alone -/

section Build
variable (f : Symbol → Symbol)

theorem insertDesc_rename (e : WorkEntry) (w : List WorkEntry) :
    insertDesc (renameEntry f e) (w.map (renameEntry f)) = (insertDesc e w).map (renameEntry f) := by
  induction w with
  | nil => rfl
  | cons g w ih =>
    simp only [List.map_cons, insertDesc, ih]
    by_cases hle : g.2 ≤ e.2 <;> simp [renameEntry, hle]

theorem sortDesc_rename (w : List WorkEntry) :
    sortDesc (w.map (renameEntry f)) = (sortDesc w).map (renameEntry f) := by
  induction w with
  | nil => rfl
  | cons e w ih =>
    calc sortDesc ((e :: w).map (renameEntry f))
        = insertDesc (renameEntry f e) (sortDesc (w.map (renameEntry f))) := rfl
      _ = insertDesc (renameEntry f e) ((sortDesc w).map (renameEntry f)) := by rw [ih]
      _ = (sortDesc (e :: w)).map (renameEntry f) := insertDesc_rename f e (sortDesc w)

theorem mergeStep_rename (w : List WorkEntry) :
    mergeStep (w.map (renameEntry f)) = (mergeStep w).map (renameEntry f) := by
  unfold mergeStep
  rw [sortDesc_rename, ← List.map_reverse]
  rcases (sortDesc w).reverse with _ | ⟨last, _ | ⟨beforeLast, restRev⟩⟩
  · rfl
  · rfl
  · simp [mergeEntries, renameEntry, Node.rename]

theorem mergeLoop_rename (fuel : Nat) (w : List WorkEntry) :
    mergeLoop fuel (w.map (renameEntry f)) = (mergeLoop fuel w).map (renameEntry f) := by
  induction fuel generalizing w with
  | zero => rfl
  | succ fuel ih =>
    simp only [mergeLoop, List.length_map, mergeStep_rename, ih]
    split <;> rfl

theorem initialWork_rename (ft : FreqTable) :
    initialWork (renameKeys f ft) = (initialWork ft).map (renameEntry f) := by
  simp [initialWork, renameKeys, renameEntry, Node.rename]

theorem buildTree_rename (ft : FreqTable) :
    buildTree (renameKeys f ft) = (buildTree ft).map (Node.rename f) := by
  simp [buildTree, initialWork_rename, mergeLoop_rename, Function.comp_def, renameEntry]

theorem buildBody_rename (s : State) : buildBody (s.rename f) = (buildBody s).rename f := by
  unfold buildBody
  simp only [State.setTree_ft, State.rename_ft]
  cases hft : s.ft with
  | nil => rfl
  | cons e ft => rw [setTree_rename, ← buildTree_rename, renameKeys_cons]; rfl

/-! ## ASSIGN: the paths of a tree are those of its shape -/

theorem walk_rename (n : Node) (path : BitSeq) : walk (n.rename f) path = renameKeys f (walk n path) := by
  induction n generalizing path with
  | leaf x => rfl
  | internal l r hl hr => simp [walk, Node.rename, hl, hr]

theorem codesOf_rename (n : Node) : codesOf (n.rename f) = renameKeys f (codesOf n) := by
  cases n with
  | leaf x => rfl
  | internal l r => exact walk_rename f (.internal l r) []

theorem assignBody_rename (s : State) : assignBody (s.rename f) = (assignBody s).rename f := by
  unfold assignBody
  rw [State.rename_tree]
  cases s.tree with
  | none => rfl
  | some root => simp [setTree_rename, setCt_rename, codesOf_rename]

end Build

/-! ## ENCODE -/

section Streams
variable {f : Symbol → Symbol}

theorem codeOf_rename (hf : f.Injective) (ct : CodeTable) (x : Symbol) :
    codeOf (renameKeys f ct) (f x) = codeOf ct x := by
  induction ct with
  | nil => rfl
  | cons e ct ih => simp only [renameKeys_cons, codeOf, hf.eq_iff, ih]

/-- The body is the same, and the first unknown symbol stands at the same position (R146). -/
theorem translateText_rename (hf : f.Injective) (ct : CodeTable) (i : Nat) (body : BitSeq) (text : List Symbol) :
    translateText (renameKeys f ct) i body (text.map f) =
      (translateText ct i body text).mapError (Prod.map id f) := by
  induction text generalizing i body with
  | nil => rfl
  | cons x text ih =>
    simp only [List.map_cons, translateText, codeOf_rename hf]
    cases codeOf ct x with
    | none => rfl
    | some c => exact ih (i + 1) (body ++ c)

theorem encodeBody_rename (hf : f.Injective) (s : State) : encodeBody (s.rename f) = (encodeBody s).rename f := by
  unfold encodeBody
  rw [State.rename_ct, State.rename_text, translateText_rename hf]
  cases translateText s.ct 0 [] s.text with
  | error e => rfl
  | ok body => rfl

/-! ## DECODE -/

variable (f) in
/-- Codes are looked up by their bits. -/
theorem symbolOf_rename (ct : CodeTable) (cand : BitSeq) :
    symbolOf (renameKeys f ct) cand = (symbolOf ct cand).map f := by
  induction ct with
  | nil => rfl
  | cons e ct ih =>
    simp only [renameKeys_cons, symbolOf, ih]
    split <;> rfl

variable (f) in
theorem scan_rename (ct : CodeTable) (body : BitSeq) (j : Nat) (cand : BitSeq) (start : Nat) (out : List Symbol) :
    scan (renameKeys f ct) body j cand start (out.map f) = (scan ct body j cand start out).rename f := by
  induction body generalizing j cand start out with
  | nil =>
    simp only [scan]
    split <;> rfl
  | cons b body ih =>
    simp only [scan, symbolOf_rename]
    cases symbolOf ct (cand ++ [b]) with
    | none => exact ih ..
    | some x => simpa using ih (j + 1) [] (j + 1) (out ++ [x])

/-- Two symbols with one code stay two symbols (R163). -/
theorem ambiguous_rename (hf : f.Injective) (ct : CodeTable) : ambiguous (renameKeys f ct) = ambiguous ct := by
  have hne (x y : Symbol) : (f x != f y) = (x != y) := by simp [bne, hf.eq_iff]
  simp [ambiguous, renameKeys, List.any_map, Function.comp_def, hne]

theorem decodeStream_rename (hf : f.Injective) (ct : CodeTable) (input : List Byte) :
    decodeStream (renameKeys f ct) input = (decodeStream ct input).rename f := by
  cases input with
  | nil => rfl
  | cons h rest =>
    simp only [decodeStream_cons, ambiguous_rename hf]
    split
    · rfl
    · split
      · rfl
      · exact scan_rename f ct (streamBody h rest) 0 [] 0 []

theorem decodeBody_rename (hf : f.Injective) (s : State) : decodeBody (s.rename f) = (decodeBody s).rename f := by
  unfold decodeBody
  rw [State.rename_ct, State.rename_input, decodeStream_rename hf]
  cases decodeStream s.ct s.input <;> rfl

end Streams

/-- Settles O54: each command commutes with the renaming, gate and all. -/
theorem onlyEqualityOfSymbolsIsUsed : Obligations.OnlyEqualityOfSymbolsIsUsed := by
  intro f hf i s
  cases i <;> refine congrArg Host.Outcome.next ?_
  case count => exact gate_rename f s (by rw [setFt_rename, State.rename_text, countText_rename hf])
  case build => exact gate_rename f s (buildBody_rename f s)
  case assign => exact gate_rename f s (assignBody_rename f s)
  case encode => exact gate_rename f s (encodeBody_rename hf s)
  case decode => exact gate_rename f s (decodeBody_rename hf s)
  case clrerr => exact clearError_rename f s
  case reset => exact resetItems_rename f s

end Sys2Proof.Machine
end

section
/-! PROOF. The status view (10_state.md R32), the step at a command word (10_state.md R31, R34), and the invariant of the
state after reset (70_reset_and_hazards.md R230). -/

namespace Sys2Proof.Machine

/-! ## STATUS, bit by bit -/

/-- The rows of R32: four flags from bit 0 on, and zeros above them. -/
theorem status_getLsbD (s : State) (j : Nat) :
    (status s).getLsbD j = [errFlag s, s.outValid, s.dtextValid, treePresent s].getD j false := by
  simp only [status, BitVec.getLsbD_append]
  match j with
  | 0 | 1 | 2 | 3 => simp
  | j + 4 => simp

/-- Bits 7:4 of `STATUS` read as 0 (R32). -/
theorem status_reservedBits (s : State) : (status s).extractLsb 7 4 = 0 := by
  ext j hj
  simp [status_getLsbD]

theorem errFlag_eq_true {s : State} : errFlag s = true ↔ s.err ≠ 0 := bne_iff_ne

theorem treePresent_eq_true {s : State} : treePresent s = true ↔ s.tree ≠ none := Option.isSome_iff_ne_none

/-- Settles O46: each bit is its flag of R32, and after reset no flag is set. -/
theorem statusBits : Obligations.StatusBits := by
  refine ⟨fun s => ⟨?_, status_getLsbD s 1, status_getLsbD s 2, ?_, status_reservedBits s⟩, rfl⟩
  · rw [status_bit0, errFlag_eq_true]
  · rw [status_getLsbD s 3]
    exact treePresent_eq_true

/-! ## The step at a command word -/

/-- The step at a write to `CMD` is the command port's answer to the word, the action used up (R31). -/
theorem step_of_cmd {s : State} {c : Byte} {rest : List HostEvent} (h : s.pending = .cmd c :: rest) :
    step s = issue c (s.setPending rest) := by
  simp [step, stepWith, takeEvent, h, applyEvent]

/-- A word placed by `withFetchWord` is used up by the step it causes (R34). -/
theorem step_withFetchWord (s : State) (nbits w : Nat) :
    step (s.withFetchWord nbits w) = issue (tableWord nbits w) s := step_of_cmd rfl

/-- The decoder reads a table word as the word it stands for. -/
theorem decodeTableWord_eq_some {nbits w : Nat} {i : Instr} :
    decodeTableWord nbits w = some i ↔ decode (tableWord nbits w) = .instr i := by
  unfold decodeTableWord
  cases decode (tableWord nbits w) <;> simp [Decoded.toInstr?]

/-- Settles O49: the step is the port's answer to the word, and the decoding says which answer that is. -/
theorem stepRunsTheDecodedCommand : Obligations.StepRunsTheDecodedCommand := by
  refine ⟨fun s c rest i hp hd => ?_, fun s c rest hp hd => ?_, fun s w i hd => ?_⟩
  · exact (step_of_cmd hp).trans (issue_of_instr hd _)
  · exact (step_of_cmd hp).trans (issue_of_reserved hd _)
  · exact (step_withFetchWord s 8 w).trans (issue_of_instr (decodeTableWord_eq_some.1 hd) s)

/-! ## The state after reset -/

/-- Settles O53: the state after reset is the one that resetting its items leaves. -/
theorem resetMeetsTheInvariant : Obligations.ResetMeetsTheInvariant :=
  fun p => resetItems_inv p State.reset

end Sys2Proof.Machine
end

section
/-! PROOF. The buffers and what the commands do with them (20_memory.md): `pack` and `unpack` (R52), the one transition
of each host action (R56, R60), what a re-issued command does (R57), and what each command writes (its frame) and reads
(R63). -/

namespace Sys2Proof.Machine

/-! ## Bit strings and bytes (R52) -/

/-- Byte `k` of a packed sequence is the number its eight bits have. -/
theorem pack_getElem?_toNat {s : BitSeq} {k : Nat} {b : Byte} (h : (pack s)[k]? = some b) :
    b.toNat = uint (slice s (8 * k) (8 * k + 8)) := by
  obtain ⟨-, rfl⟩ : k < s.length / 8 ∧ BitVec.ofNat 8 (uint (slice s (8 * k) (8 * k + 8))) = b := by
    simpa [pack, List.getElem?_eq_some_iff] using h
  have hlen : (slice s (8 * k) (8 * k + 8)).length ≤ 8 := by simp [slice]
  have hlt : uint (slice s (8 * k) (8 * k + 8)) < 2 ^ 8 :=
    (uint_lt _).trans_le (Nat.pow_le_pow_right (by decide) hlen)
  rw [BitVec.toNat_ofNat, Nat.mod_eq_of_lt hlt]

/-- Bit `8k + j` of an unpacked byte sequence is bit `7 - j` of byte `k`. -/
theorem unpack_getElem? {b : List Byte} {k j : Nat} {v : Byte} (hb : b[k]? = some v) (hj : j < 8) :
    (unpack b)[8 * k + j]? = some (v.getLsbD (7 - j)) := by
  induction b generalizing k with
  | nil => simp at hb
  | cons w b ih =>
    rw [unpack_cons]
    cases k with
    | zero =>
      obtain rfl : w = v := by simpa using hb
      rw [List.getElem?_append_left (by simpa using hj), Nat.mul_zero, Nat.zero_add, bin8_getElem? w hj]
    | succ k =>
      rw [List.getElem?_append_right (by simp; omega), bin8_length, show 8 * (k + 1) + j - 8 = 8 * k + j by omega]
      exact ih (by simpa using hb)

/-- Settles O4: the two inverses are laws of `pack` and `unpack`; the rest says which bits each byte holds. -/
theorem packAndUnpackAreInverse : Obligations.PackAndUnpackAreInverse := by
  refine ⟨fun s hs => ⟨?_, pack_length s, fun k b => pack_getElem?_toNat⟩, pack_unpack, fun b k j v hb hj => ?_⟩
  · exact unpack_pack (s.length / 8) s (by omega)
  · exact unpack_getElem? hb (by omega)

/-! ## A step with a host action (R56, R60) -/

/-- The step applies the host's next action, which is used up. -/
theorem stepWith_of_pending (p : Config.Params) {s : State} {e : HostEvent} {rest : List HostEvent}
    (h : s.pending = e :: rest) : stepWith p s = applyEvent p e (s.setPending rest) := by
  simp [stepWith, takeEvent, h]

/-- While the host does nothing the block stays as it is. -/
theorem stepWith_of_idle (p : Config.Params) {s : State} (h : s.pending = []) : stepWith p s = .next s := by
  simp [stepWith, takeEvent, h]

/-- What the host reads is in the block, not among the host's own actions (R192). -/
@[simp] theorem hostValue_setPending (x : ReadPort) (s : State) (v : List HostEvent) :
    hostValue x (s.setPending v) = hostValue x s := by cases x <;> rfl

/-- Settles O50: the step applies the action, and what a read returns does not depend on `pending`. -/
theorem stepTakesTheNextHostAction : Obligations.StepTakesTheNextHostAction := by
  refine ⟨fun p s w rest h => ?_, fun p s x rest h => ?_, fun p s rest h => ?_, fun p s => stepWith_of_idle p⟩ <;>
    rw [stepWith_of_pending p h]
  · rfl
  · rw [applyEvent, hostRead, hostValue_setPending]; rfl
  · rfl

/-! ## The frame of each command (R63) -/

/-- An outcome has one next state (R244). -/
theorem next_state_unique {o : Host.Outcome State Fault Refusal} {t u : State} (ht : o = .next t) (hu : o = .next u) :
    t = u := Host.Outcome.next.inj (ht.symm.trans hu)

/-- What a raise leaves, in the terms of the frame: a recorded failure, and all else as the raise has it (R206). -/
theorem raise_frame (k : FailKind) (i : ErrInfo) (s : State) :
    (raise k i s).err ≠ 0 ∧ raise k i s = s.failed (raise k i s).err (raise k i s).errInfo :=
  ⟨k.code_ne_zero, rfl⟩

/-- COUNT changes at most `FT`, whether or not a failure is recorded. -/
theorem exec_count_frame {s t : State} (h : exec .count s = .next t) : t = { s with ft := t.ft } := by
  by_cases herr : s.err = 0
  · obtain rfl := next_state_unique h (exec_count_ok herr)
    rfl
  · obtain rfl := next_state_unique h (exec_failed (by decide) (by decide) herr)
    rfl

/-- BUILD writes a tree, or raises with no tree left. -/
theorem buildBody_frame (s : State) :
    (s.ft ≠ [] ∧ (buildBody s).tree ≠ none ∧ buildBody s = s.setTree (buildBody s).tree) ∨
    ((buildBody s).err ≠ 0 ∧
      buildBody s = (s.failed (buildBody s).err (buildBody s).errInfo).setTree none) := by
  obtain ⟨-, heq⟩ | ⟨hne, root, -, heq⟩ := buildBody_cases s <;> rw [heq]
  · exact .inr ⟨by simp, rfl⟩
  · exact .inl ⟨hne, by simp, rfl⟩

/-- ASSIGN writes `CT` and uses up the tree, or raises. -/
theorem assignBody_frame (s : State) :
    assignBody s = (s.setCt (assignBody s).ct).setTree none ∨
    ((assignBody s).err ≠ 0 ∧ assignBody s = s.failed (assignBody s).err (assignBody s).errInfo) := by
  obtain ⟨-, heq⟩ | ⟨root, -, heq⟩ := assignBody_cases s <;> rw [heq]
  · exact .inr ⟨by simp, rfl⟩
  · exact .inl rfl

/-- ENCODE writes `OUT`, or raises. -/
theorem encodeBody_frame (s : State) :
    encodeBody s = s.setOut (encodeBody s).out true ∨
    ((encodeBody s).err ≠ 0 ∧ encodeBody s = s.failed (encodeBody s).err (encodeBody s).errInfo) := by
  obtain ⟨codes, -, heq⟩ | ⟨i, x, -, heq⟩ := encodeBody_cases s <;> rw [heq]
  · exact .inl rfl
  · exact .inr ⟨by simp, rfl⟩

/-- DECODE writes `DTEXT`, or raises. -/
theorem decodeBody_frame (s : State) :
    decodeBody s = s.setDtext (decodeBody s).dtext true ∨
    ((decodeBody s).err ≠ 0 ∧ decodeBody s = s.failed (decodeBody s).err (decodeBody s).errInfo) := by
  unfold decodeBody
  cases decodeStream s.ct s.input with
  | text v => exact .inl rfl
  | noHeader | padTooLarge | ambiguousTable | midCode => exact .inr (raise_frame _ _ s)

/-! ## From the command word to the command -/

section Words
variable {c : Byte} {s t : State}

/-- The answer to a command's word is the command's own. -/
theorem issue_next_eq {i : Instr} {u : State} (h : issue c s = .next t) (hd : decode c = .instr i)
    (hu : exec i s = .next u) : t = u :=
  next_state_unique h ((issue_of_instr hd s).trans hu)

/-- A word that names no command raises while no failure is recorded (R182). -/
theorem issue_unlisted_frame (h : issue c s = .next t) (hd : ∀ i, decode c ≠ .instr i) (herr : s.err = 0) :
    t.err ≠ 0 ∧ t = s.failed t.err t.errInfo := by
  cases hc : decode c with
  | instr i => exact absurd hc (hd i)
  | reserved op =>
    rw [issue_of_reserved hc, illegalCommand, gate_of_ok _ herr] at h
    cases h
    exact raise_frame _ _ s

/-- While a failure is recorded a word that is neither CLRERR's nor RESET's changes nothing (R183). -/
theorem issue_gated_frame (h : issue c s = .next t) (herr : s.err ≠ 0) (hclr : decode c ≠ .instr .clrerr)
    (hrst : decode c ≠ .instr .reset) : t = s := by
  cases hc : decode c with
  | instr i =>
    rw [hc] at hclr hrst
    exact issue_next_eq h hc (exec_failed (mt (congrArg _) hclr) (mt (congrArg _) hrst) herr)
  | reserved op =>
    rw [issue_of_reserved hc, illegalCommand, gate_of_failed _ herr] at h
    exact (Host.Outcome.next.inj h).symm

end Words

/-- Settles O42: each word's row of R63 is the frame of its command. -/
theorem commandsTouchOnlyTheirBuffers : Obligations.CommandsTouchOnlyTheirBuffers := by
  intro c s t h
  refine ⟨fun hd => ?_, fun hd herr => ?_, fun hd herr => ?_, fun hd herr => ?_, fun hd herr => ?_, fun hd => ?_,
    fun hd => ?_, issue_unlisted_frame h, issue_gated_frame h⟩
  · exact exec_count_frame ((issue_of_instr hd s).symm.trans h)
  · obtain rfl := issue_next_eq h hd (exec_build_ok herr)
    exact buildBody_frame s
  · obtain rfl := issue_next_eq h hd (exec_assign_ok herr)
    exact assignBody_frame s
  · obtain rfl := issue_next_eq h hd (exec_encode_ok herr)
    exact encodeBody_frame s
  · obtain rfl := issue_next_eq h hd (exec_decode_ok herr)
    exact decodeBody_frame s
  · exact issue_next_eq h hd rfl
  · exact issue_next_eq h hd rfl

/-! ## What a re-issued command does (R57)

A command looks at none of the buffers it writes, and writes them whole. -/

theorem buildBody_setTree (s : State) (v : Option Node) : buildBody (s.setTree v) = buildBody s := rfl

theorem encodeBody_setOut (s : State) (v : List Byte) (b : Bool) : encodeBody (s.setOut v b) = encodeBody s := by
  simp only [encodeBody, State.setOut_text, State.setOut_ct]
  cases translateText s.ct 0 [] s.text <;> rfl

theorem decodeBody_setDtext (s : State) (v : List Symbol) (b : Bool) :
    decodeBody (s.setDtext v b) = decodeBody s := by
  simp only [decodeBody, State.setDtext_input, State.setDtext_ct]
  cases decodeStream s.ct s.input <;> rfl

/-- A successful BUILD, ENCODE or DECODE meets the same operands when issued again. -/
theorem buildBody_idempotent {s : State} (h : (buildBody s).err = 0) : buildBody (buildBody s) = buildBody s := by
  obtain ⟨-, -, heq⟩ | ⟨hne, -⟩ := buildBody_frame s
  · exact (congrArg buildBody heq).trans (buildBody_setTree s _)
  · exact absurd h hne

theorem encodeBody_idempotent {s : State} (h : (encodeBody s).err = 0) : encodeBody (encodeBody s) = encodeBody s := by
  obtain heq | ⟨hne, -⟩ := encodeBody_frame s
  · exact (congrArg encodeBody heq).trans (encodeBody_setOut s _ _)
  · exact absurd h hne

theorem decodeBody_idempotent {s : State} (h : (decodeBody s).err = 0) : decodeBody (decodeBody s) = decodeBody s := by
  obtain heq | ⟨hne, -⟩ := decodeBody_frame s
  · exact (congrArg decodeBody heq).trans (decodeBody_setDtext s _ _)
  · exact absurd h hne

/-- A successful ASSIGN has used up the tree (R134). -/
theorem assignBody_tree {s : State} (h : (assignBody s).err = 0) : (assignBody s).tree = none := by
  obtain heq | ⟨hne, -⟩ := assignBody_frame s
  · rw [heq, State.setTree_tree]
  · exact absurd h hne

/-- Settles O44: on success the operands stand as they were, but for ASSIGN, whose operand is used up. -/
theorem reissueIsIdempotentButForAssign : Obligations.ReissueIsIdempotentButForAssign := by
  refine fun s t hs ht => ⟨?_, fun h => ?_⟩
  · rintro i (rfl | rfl | rfl | rfl) h
    · obtain rfl := next_state_unique h (exec_count_ok hs)
      exact exec_count_ok ht
    · obtain rfl := next_state_unique h (exec_build_ok hs)
      rw [exec_build_ok ht, buildBody_idempotent ht]
    · obtain rfl := next_state_unique h (exec_encode_ok hs)
      rw [exec_encode_ok ht, encodeBody_idempotent ht]
    · obtain rfl := next_state_unique h (exec_decode_ok hs)
      rw [exec_decode_ok ht, decodeBody_idempotent ht]
  · obtain rfl := next_state_unique h (exec_assign_ok hs)
    exact ⟨_, exec_assign_ok ht, by rw [assignBody_none (assignBody_tree ht)]; rfl⟩

/-! ## What each command reads (R63, R55)

With equal operands a command takes the same branch from either state, and writes the same there. -/

section Reads
variable {s s' : State}

/-- Raises with the same detail are alike, from any two states. -/
theorem raisedAlike_raise (k : FailKind) (i : ErrInfo) (s s' : State) : RaisedAlike (raise k i s) (raise k i s') :=
  ⟨rfl, fun _ => rfl, fun _ => ⟨rfl, rfl⟩, fun _ => ⟨rfl, rfl⟩⟩

/-- Where neither raised, nothing is to be compared. -/
theorem raisedAlike_of_ok {t t' : State} (h : t.err = 0) (h' : t'.err = 0) : RaisedAlike t t' :=
  ⟨h.trans h'.symm, fun hne => absurd h hne, fun hne => absurd h hne, fun hne => absurd h hne⟩

theorem buildBody_reads (h : s.err = 0) (h' : s'.err = 0) (hft : s.ft = s'.ft) :
    (buildBody s).tree = (buildBody s').tree ∧ RaisedAlike (buildBody s) (buildBody s') := by
  simp only [buildBody, State.setTree_ft, hft]
  cases s'.ft with
  | nil => exact ⟨rfl, raisedAlike_raise _ _ _ _⟩
  | cons => exact ⟨rfl, raisedAlike_of_ok h h'⟩

theorem assignBody_reads (h : s.err = 0) (h' : s'.err = 0) (htree : s.tree = s'.tree) :
    (assignBody s).tree = (assignBody s').tree ∧ ((assignBody s).err = 0 → (assignBody s).ct = (assignBody s').ct) ∧
      RaisedAlike (assignBody s) (assignBody s') := by
  simp only [assignBody, htree]
  cases htree' : s'.tree with
  | none =>
    exact ⟨htree, fun hok => absurd hok (FailKind.code_ne_zero .emptyInput), raisedAlike_raise _ _ _ _⟩
  | some root => exact ⟨rfl, fun _ => rfl, raisedAlike_of_ok h h'⟩

theorem encodeBody_reads (h : s.err = 0) (h' : s'.err = 0) (htext : s.text = s'.text) (hct : s.ct = s'.ct) :
    (encodeBody s).out = (encodeBody s').out ∧ (encodeBody s).outValid = (encodeBody s').outValid ∧
      RaisedAlike (encodeBody s) (encodeBody s') := by
  simp only [encodeBody, htext, hct]
  cases translateText s'.ct 0 [] s'.text with
  | error => exact ⟨rfl, rfl, raisedAlike_raise _ _ _ _⟩
  | ok => exact ⟨rfl, rfl, raisedAlike_of_ok h h'⟩

theorem decodeBody_reads (h : s.err = 0) (h' : s'.err = 0) (hinput : s.input = s'.input) (hct : s.ct = s'.ct) :
    (decodeBody s).dtext = (decodeBody s').dtext ∧ (decodeBody s).dtextValid = (decodeBody s').dtextValid ∧
      RaisedAlike (decodeBody s) (decodeBody s') := by
  simp only [decodeBody, hinput, hct]
  cases decodeStream s'.ct s'.input with
  | text => exact ⟨rfl, rfl, raisedAlike_of_ok h h'⟩
  | noHeader | padTooLarge | ambiguousTable | midCode => exact ⟨rfl, rfl, raisedAlike_raise _ _ _ _⟩

end Reads

/-- Settles O43: each command's clause is what its body reads; CLRERR and RESET write constants. -/
theorem commandsReadOnlyTheirOperands : Obligations.CommandsReadOnlyTheirOperands := by
  intro s s' t t' hs hs'
  refine ⟨fun h h' hop => ?_, fun h h' => ?_, fun h h' => ?_, fun h h' => ?_, fun h h' => ?_, fun h h' => ?_,
    fun h h' => ?_⟩
  · obtain rfl := next_state_unique h (exec_count_ok hs)
    obtain rfl := next_state_unique h' (exec_count_ok hs')
    exact congrArg countText hop
  · obtain rfl := next_state_unique h (exec_build_ok hs)
    obtain rfl := next_state_unique h' (exec_build_ok hs')
    exact buildBody_reads hs hs'
  · obtain rfl := next_state_unique h (exec_assign_ok hs)
    obtain rfl := next_state_unique h' (exec_assign_ok hs')
    exact assignBody_reads hs hs'
  · obtain rfl := next_state_unique h (exec_encode_ok hs)
    obtain rfl := next_state_unique h' (exec_encode_ok hs')
    exact encodeBody_reads hs hs'
  · obtain rfl := next_state_unique h (exec_decode_ok hs)
    obtain rfl := next_state_unique h' (exec_decode_ok hs')
    exact decodeBody_reads hs hs'
  · cases h; cases h'
    exact ⟨rfl, rfl⟩
  · cases h; cases h'
    rfl

end Sys2Proof.Machine
end

section
/-! PROOF. The command words (30_encoding.md R81 to R83): decoder and encoder agree, and every other word is illegal;
the worst-case sizes (R77, R243); and the round trip of `codeTable`, `encode` and `decode` (R86), run by run. -/

namespace Sys2Proof.Machine

/-! ## Command words (R81 to R83, R182) -/

/-- Every row of the opcode table fixes the whole word, to the word of its command (R81, R82). -/
theorem opcodeTable_row {r : OpcodeRow} (hr : r ∈ opcodeTable) :
    r.mask = 0xFF ∧ r.pattern = Sys2Proof.encode r.instr := by
  revert r; decide

/-- A row matches no word but its own command's. -/
theorem eq_encode_of_matchingRow {c : Byte} {r : OpcodeRow} (h : matchingRow c = some r) :
    c = Sys2Proof.encode r.instr := by
  obtain ⟨hmask, hpattern⟩ := opcodeTable_row (List.mem_of_find?_eq_some h)
  have hbits : c &&& r.mask = r.pattern := by simpa using List.find?_some h
  rw [hmask, hpattern] at hbits
  exact (BitVec.and_allOnes (x := c)).symm.trans hbits

/-- A word names a command exactly if it is that command's word (R82). -/
theorem decode_eq_instr_iff {c : Byte} {i : Instr} : decode c = .instr i ↔ c = Sys2Proof.encode i := by
  refine ⟨fun h => ?_, fun h => h ▸ decode_encode i⟩
  unfold decode at h
  split at h
  case h_1 r hrow =>
    cases h
    exact eq_encode_of_matchingRow hrow
  case h_2 => cases h

/-- The words that R83 lists. -/
abbrev UnlistedWord (c : Byte) : Prop := c.toNat = 0x00 ∨ (0x06 ≤ c.toNat ∧ c.toNat ≤ 0x0D) ∨ 0x10 ≤ c.toNat

/-- No command's word is among those of R83. -/
theorem not_unlistedWord_encode (i : Instr) : ¬ UnlistedWord (Sys2Proof.encode i) := by
  cases i <;> decide

/-- A word of R83 names no command. -/
theorem decode_of_unlistedWord {c : Byte} (hc : UnlistedWord c) : decode c = .reserved c := by
  cases hd : decode c with
  | instr i => exact absurd (decode_eq_instr_iff.1 hd ▸ hc) (not_unlistedWord_encode i)
  | reserved op => rw [decode_reserved hd]

/-- A word that names no command raises `IllegalCommand` with itself as the detail (R182). -/
theorem issue_reserved_ok {c : Byte} {s : State} (hd : decode c = .reserved c) (h : s.err = 0) :
    issue c s = .next (s.failed 5 { index := c.toNat }) := by
  rw [issue_of_reserved hd, illegalCommand, gate_of_ok _ h, raise_eq_failed]
  rfl

/-- While a failure is recorded such a word is ignored (R183). -/
theorem issue_reserved_failed {c : Byte} {s : State} (hd : decode c = .reserved c) (h : s.err ≠ 0) :
    issue c s = .next s := by
  rw [issue_of_reserved hd, illegalCommand, gate_of_failed _ h]

/-- Settles O1: each word of the table is its command's own. -/
theorem commandWordsDecodeAsTabled : Obligations.CommandWordsDecodeAsTabled :=
  ⟨decode_encode .count, decode_encode .build, decode_encode .assign, decode_encode .encode, decode_encode .decode,
    decode_encode .clrerr, decode_encode .reset⟩

/-- Settles O2: the two directions of the decoder's `↔`. -/
theorem decodeEncodeAgree : Obligations.DecodeEncodeAgree :=
  ⟨fun i _ => decode_encode i, fun _ _ => decode_eq_instr_iff.1⟩

/-- Settles O3: no word of R83 is a command's, so the port answers it with the illegal command. -/
theorem unlistedWordsRaiseIllegalCommand : Obligations.UnlistedWordsRaiseIllegalCommand := by
  refine ⟨fun c hc => ?_, State.reset.failed 5 { index := 0 }, ?_, rfl, rfl⟩
  · have hd := decode_of_unlistedWord hc
    exact ⟨hd, fun s => ⟨issue_reserved_ok hd, issue_reserved_failed hd⟩⟩
  · exact issue_reserved_ok (decode_of_unlistedWord (.inl rfl)) rfl

/-! ## Worst-case sizes (R77, R243) -/

theorem leaves_length_pos (n : Node) : 0 < n.leaves.length := by
  cases n with
  | leaf x => exact Nat.one_pos
  | internal l r =>
    rw [Node.leaves, List.length_append]
    exact Nat.add_pos_left (leaves_length_pos l) _

/-- Each edge of a path leaves the leaves of the other child behind. -/
theorem follow_length_add_leaves_le {n m : Node} {path : BitSeq} (h : n.follow path = some m) :
    path.length + m.leaves.length ≤ n.leaves.length := by
  induction path generalizing n with
  | nil =>
    obtain rfl : n = m := by simpa [Node.follow] using h
    simp
  | cons b path ih =>
    cases n with
    | leaf x => simp [Node.follow] at h
    | internal l r =>
      have hl := leaves_length_pos l
      have hr := leaves_length_pos r
      rw [Node.leaves, List.length_append, List.length_cons]
      cases b with
      | false => have := ih (n := l) (by simpa [Node.follow] using h); omega
      | true => have := ih (n := r) (by simpa [Node.follow] using h); omega

/-- A code of an alphabet of two or more is shorter than the alphabet is large (R77). -/
theorem codesOf_internal_length_le {l r : Node} {e : Symbol × Code} (he : e ∈ codesOf (.internal l r)) :
    e.2.length ≤ (Node.internal l r).leaves.length - 1 := by
  have hpath := follow_length_add_leaves_le ((codesOf_internal_mem l r e.1 e.2).1 he)
  simp only [Node.leaves, List.length_singleton] at hpath ⊢
  omega

/-- The bound on the codes of any tree, a bare leaf included (R243). -/
theorem codesOf_length_le {n : Node} {e : Symbol × Code} (he : e ∈ codesOf n) :
    e.2.length ≤ max 1 (n.leaves.length - 1) := by
  cases n with
  | leaf x =>
    obtain rfl : e = (x, [Config.singleCodeBit]) := by simpa [codesOf] using he
    exact le_max_left _ _
  | internal l r => exact (codesOf_internal_length_le he).trans (le_max_right _ _)

/-- The tree BUILD stores has a leaf for each entry of the table (R118 (a)). -/
theorem buildTree_leaves_length {ft : FreqTable} {root : Node} (h : buildTree ft = some root) :
    root.leaves.length = ft.length := by
  have hne : ft ≠ [] := by rintro rfl; cases h
  obtain ⟨root', hroot', hperm⟩ := buildTree_leaves hne
  obtain rfl : root = root' := Option.some.inj (h.symm.trans hroot')
  simpa using hperm.length_eq

/-- A body has at most as many bits as its symbols and the longest code allow (R73). -/
theorem codesOfText_flatten_length_le {ct : CodeTable} {text : List Symbol} {codes : List Code} {k : Nat}
    (h : CodesOfText ct text codes) (hk : ∀ e ∈ ct, e.2.length ≤ k) : codes.flatten.length ≤ text.length * k := by
  induction h with
  | nil => simp
  | @cons x c _ _ hc _ ih =>
    have hcode : c.length ≤ k := hk (x, c) hc
    rw [List.flatten_cons, List.length_append, List.length_cons, Nat.succ_mul]
    omega

/-- COMPRESS of a non-empty text (R186): what it leaves, by the tree of the counted table and the codes of the text. -/
theorem compress_next (p : Config.Params) {s : State} (h : s.err = 0) (hne : s.text ≠ []) :
    ∃ (root : Node) (codes : List Code), buildTree (countText s.text) = some root ∧
      CodesOfText (codesOf root) s.text codes ∧
      runEvents p (commands compress) s =
        .next (State.setOut { s with ft := countText s.text, ct := codesOf root, tree := none }
          (pack (payloadBits codes.flatten)) true) := by
  obtain ⟨root, codes, hroot, hnodup, hcodes, hrun⟩ := compress_steps p h hne
  refine ⟨root, codes, hroot, hcodes, (hrun (commands [.encode])).trans ?_⟩
  rw [runEvents_command (exec_encode_ok (by exact h)), encodeBody_ok (by exact (codesOf_wf hnodup).1) hcodes]
  rfl

/-- Every matched entry takes at least one bit of the body (R164). -/
theorem greedyParse_entries_length_le {ct : CodeTable} {body : BitSeq} {entries : List (Symbol × Code)} {cand : BitSeq}
    (h : GreedyParse ct body entries cand) : entries.length ≤ body.length := by
  have hone : ∀ n ∈ (entries.map Prod.snd).map List.length, 1 ≤ n := by
    simp only [List.map_map, List.forall_mem_map]
    exact fun e he => List.length_pos_of_ne_nil (h.matched e he).2.1
  calc entries.length
      = ((entries.map Prod.snd).map List.length).length := by simp
    _ ≤ ((entries.map Prod.snd).map List.length).sum := List.length_le_sum_of_one_le _ hone
    _ = (entries.map Prod.snd).flatten.length := List.length_flatten.symm
    _ ≤ body.length := by rw [h.bits, List.length_append]; exact Nat.le_add_right _ _

/-- A decoded text has at most one symbol for each bit after the header (R243). -/
theorem decodeBody_dtext_length_le {s : State} (hok : (decodeBody s).err = 0) :
    (decodeBody s).dtext.length ≤ 8 * (s.input.length - 1) := by
  obtain ⟨-, heq⟩ | ⟨h, rest, hinput, ⟨-, heq⟩ | ⟨-, -, heq⟩ | ⟨-, -, es, cand, hparse, ⟨-, heq⟩ | ⟨-, heq⟩⟩⟩ :=
    decodeBody_cases s
  case inr.inr.inr.inl =>
    have hes := greedyParse_entries_length_le hparse
    rw [streamBody_length] at hes
    rw [heq, hinput, State.setDtext_dtext, List.length_map, List.length_cons]
    omega
  all_goals
    rw [heq, State.failed_err] at hok
    exact absurd hok (by decide)

/-- Settles O45: a path is shorter than the tree has leaves, a body is bounded by its longest code, and a parse uses
a bit for each symbol. -/
theorem worstCaseSizes : Obligations.WorstCaseSizes := by
  refine ⟨fun s t l r h htree hexec => ?_, fun p s t h hne hrun => ?_, fun s t h hexec hok => ?_⟩
  · rw [exec_assign_ok h, assignBody_some htree] at hexec
    cases hexec
    exact fun e => codesOf_internal_length_le
  · obtain ⟨root, codes, hroot, hcodes, hnext⟩ := compress_next p h hne
    obtain rfl := next_state_unique hrun hnext
    have hbody := codesOfText_flatten_length_le hcodes fun e => codesOf_length_le
    rw [buildTree_leaves_length hroot] at hbody
    rw [State.setOut_out, State.setOut_ft, pack_length, payloadBits_length, Nat.mul_div_cancel_left _ (by decide)]
    exact Nat.add_le_add_left (Nat.div_le_div_right hbody) 2
  · obtain rfl := next_state_unique hexec (exec_decode_ok h)
    exact decodeBody_dtext_length_le hok

/-! ## `codeTable`, `encode` and `decode` (R86) -/

/-- A host write that is not refused, as an element of a run. -/
theorem runEvents_write {p : Config.Params} {w : HostWrite} {es : List HostEvent} {s : State}
    (h : writeRefusal p s.out w = none) : runEvents p (.write w :: es) s = runEvents p es (storeBuffer w s) :=
  runEvents_cons (by simp [applyEvent, hostWrite, h])

/-- Without bounds every text can be loaded (R188). -/
theorem runEvents_writeText (text : List Symbol) (es : List HostEvent) (s : State) :
    runEvents Config.unbounded (.write (.text text) :: es) s = runEvents Config.unbounded es (s.setText text) :=
  runEvents_write (writeRefusal_text.2 ⟨allSymbols_none _, rfl⟩)

/-- Without bounds every finite map with non-empty codes can be loaded (R190). -/
theorem runEvents_writeCt {ct : CodeTable} (hwf : CodeTable.WellFormed ct) (es : List HostEvent) (s : State) :
    runEvents Config.unbounded (.write (.ct ct) :: es) s = runEvents Config.unbounded es (s.setCt ct) :=
  runEvents_write (writeRefusal_ct.2 ⟨allSymbols_none _, hwf, rfl⟩)

/-- Without bounds every byte sequence can be loaded (R191). -/
theorem runEvents_writeInput (bytes : List Byte) (es : List HostEvent) (s : State) :
    runEvents Config.unbounded (.write (.input bytes) :: es) s = runEvents Config.unbounded es (s.setInput bytes) :=
  runEvents_write rfl

section Functional
variable {text : List Symbol} {ct : CodeTable} {s : State}

/-- `codeTable(text)` of a non-empty text: a well-formed, prefix-free table with a code for each symbol. -/
theorem codeTableRun_next (h : s.err = 0) (hne : text ≠ []) :
    ∃ t codes, runEvents Config.unbounded (codeTableRun text) s = .next t ∧ t.err = 0 ∧
      CodeTable.WellFormed t.ct ∧ CodeTable.PrefixFree t.ct ∧ CodesOfText t.ct text codes := by
  obtain ⟨root, codes, -, hnodup, hcodes, hrun⟩ :=
    compress_steps Config.unbounded (s := s.setText text) h hne
  exact ⟨_, codes, (runEvents_writeText text _ s).trans (hrun []), h, codesOf_wf hnodup, codesOf_prefixFree root,
    hcodes⟩

/-- `codeTable` of the empty text: BUILD raises, and ASSIGN is ignored (R116, R183). -/
theorem codeTableRun_nil (h : s.err = 0) :
    runEvents Config.unbounded (codeTableRun []) s =
      .next { (s.setText []).failed 1 {} with ft := [], tree := none } :=
  calc runEvents Config.unbounded (codeTableRun []) s
      = runEvents Config.unbounded (commands [.count, .build] ++ commands [.assign]) (s.setText []) :=
        runEvents_writeText [] _ s
    _ = runEvents Config.unbounded (commands [.assign])
          { (s.setText []).failed 1 {} with ft := [], tree := none } := compress_empty _ (by exact h) rfl _
    _ = .next { (s.setText []).failed 1 {} with ft := [], tree := none } :=
        runEvents_gated _ (by simp) _ (by simp)

/-- `encode(text, ct)` of a text whose symbols have codes (R71). -/
theorem encodeRun_next (h : s.err = 0) (hwf : CodeTable.WellFormed ct) {codes : List Code}
    (hcodes : CodesOfText ct text codes) :
    runEvents Config.unbounded (encodeRun text ct) s =
      .next (((s.setText text).setCt ct).setOut (pack (payloadBits codes.flatten)) true) := by
  rw [encodeRun, runEvents_writeText, runEvents_writeCt hwf, runEvents_command (exec_encode_ok (by exact h)),
    encodeBody_ok (by exact hwf.1) hcodes]
  rfl

/-- `decode(bytes, ct)` of a stream that decodes (R160). -/
theorem decodeRun_next (h : s.err = 0) (hwf : CodeTable.WellFormed ct) {bytes : List Byte}
    (hstream : decodeStream ct bytes = .text text) :
    runEvents Config.unbounded (decodeRun bytes ct) s =
      .next (((s.setInput bytes).setCt ct).setDtext text true) := by
  rw [decodeRun, runEvents_writeInput, runEvents_writeCt hwf, runEvents_command (exec_decode_ok (by exact h))]
  simp [decodeBody, hstream]

end Functional

/-- Settles O30: `codeTable` leaves a prefix-free table with a code for each symbol, `encode` the payload of the text
under it, and such a payload decodes to its text. -/
theorem functionalNotationRoundTrips : Obligations.FunctionalNotationRoundTrips := by
  refine ⟨fun text s1 s2 s3 hne h1 h2 h3 => ?_, fun s h => ⟨_, codeTableRun_nil h, rfl⟩⟩
  obtain ⟨t1, codes, hrun1, hok1, hwf, hprefix, hcodes⟩ := codeTableRun_next h1 hne
  have hstream := decodeStream_payload hwf hprefix hcodes
  exact ⟨t1, _, _, hrun1, hok1, encodeRun_next h2 hwf hcodes, h2, decodeRun_next h3 hwf hstream, h3, rfl⟩

end Sys2Proof.Machine
end

section
/-! PROOF. COUNT (40_frequency_counter.md R100, R101): what the command leaves, and the properties of the counted
table, each from its form without the loop, `countText_eq`. -/

namespace Sys2Proof.Machine

/-- Settles O6: the loop leaves the table of first occurrences, and a recorded failure gates the command. -/
theorem countWritesFirstOccurrenceTable : Obligations.CountWritesFirstOccurrenceTable := by
  refine ⟨decode_encode .count, fun s => ⟨fun h => ?_, fun h => exec_failed (by simp) (by simp) h⟩⟩
  rw [exec_count_ok h, countText_eq]
  rfl

section CountedTable
variable (text : List Symbol)

/-- The first occurrences are the distinct symbols, in another order than Mathlib's `dedup` lists them. -/
theorem firstOccurrences_perm_dedup : (firstOccurrences text).Perm text.dedup :=
  (List.perm_ext_iff_of_nodup (firstOccurrences_nodup text) text.nodup_dedup).2 fun x => by
    rw [firstOccurrences_mem, List.mem_dedup]

/-- R101 (a). -/
theorem countText_total : FreqTable.total (countText text) = text.length :=
  calc FreqTable.total (countText text)
      = ((firstOccurrences text).map fun x => text.count x).sum := by
        simp [FreqTable.total, countText_eq, Function.comp_def]
    _ = (text.dedup.map fun x => text.count x).sum := ((firstOccurrences_perm_dedup text).map _).sum_eq
    _ = text.length := text.sum_map_count_dedup_eq_length

/-- R101 (b). -/
theorem countText_length : (countText text).length = text.dedup.length := by
  rw [countText_eq, List.length_map, (firstOccurrences_perm_dedup text).length_eq]

/-- R101 (c): what is listed occurs. -/
theorem one_le_of_mem_countText : ∀ e ∈ countText text, 1 ≤ e.2 := by
  rw [countText_eq, List.forall_mem_map]
  exact fun x hx => List.count_pos_iff.2 ((firstOccurrences_mem text x).1 hx)

/-- R101 (e). -/
theorem countText_head?_fst : (countText text).head?.map Prod.fst = text.head? := by
  rw [countText_eq]
  cases text with
  | nil => rfl
  | cons x text => rfl

end CountedTable

/-- Settles O7: the table is that of `TEXT` alone, and each property is one of `countText`. -/
theorem countedTableProperties : Obligations.CountedTableProperties := by
  intro s t h hexec
  obtain rfl := next_state_unique hexec (exec_count_ok h)
  refine ⟨countText_total s.text, countText_length s.text, one_le_of_mem_countText s.text, countText_wf s.text,
    fun _ => countText_head?_fst s.text, fun s' t' h' htext hexec' => ?_⟩
  obtain rfl := next_state_unique hexec' (exec_count_ok h')
  exact congrArg countText htext

end Sys2Proof.Machine
end

section
/-! PROOF. BUILD (41_tree_builder.md R110 to R118): the loop runs once per merge, the tree of a table is full over the
table's symbols, no left subtree is heavier than its right, and what the tables of no entry and of one entry give. -/

namespace Sys2Proof.Machine

/-! ## What BUILD stores -/

/-- BUILD of a table that has a tree (R110). -/
theorem exec_build_of_buildTree {s : State} {root : Node} (h : s.err = 0) (hroot : buildTree s.ft = some root) :
    exec .build s = .next { s with tree := some root } := by
  have hne : s.ft ≠ [] := by intro hft; rw [hft] at hroot; cases hroot
  obtain ⟨root', hroot', hbuild⟩ := buildBody_cons hne
  obtain rfl : root = root' := Option.some.inj (hroot.symm.trans hroot')
  exact (exec_build_ok h).trans (congrArg _ hbuild)

/-- A table with an entry has a tree (R110). -/
theorem buildTree_exists {ft : FreqTable} (hne : ft ≠ []) : ∃ root, buildTree ft = some root :=
  (buildTree_leaves hne).imp fun _ h => h.1

/-- BUILD of a table with an entry stores the tree of the table (R110). -/
theorem exec_build_next {s : State} (h : s.err = 0) (hne : s.ft ≠ []) :
    exec .build s = .next { s with tree := buildTree s.ft } := by
  obtain ⟨root, hroot⟩ := buildTree_exists hne
  rw [exec_build_of_buildTree h hroot, hroot]

/-- The loop has fuel for all its turns (R113). -/
theorem mergeLoop_initialWork {ft : FreqTable} (hne : ft ≠ []) :
    mergeLoop ft.length (initialWork ft) = mergeStep^[ft.length - 1] (initialWork ft) := by
  simpa [initialWork] using mergeLoop_eq_iterate ft.length (initialWork ft) (by simp [initialWork])
    (by simpa [initialWork] using hne)

/-! ## The turns of the loop -/

/-- The weight of a working collection. -/
def workWeight (w : List WorkEntry) : Nat := (w.map Prod.snd).sum

/-- A merge keeps the weight of the collection. -/
theorem workWeight_merge {w rest : List WorkEntry} {bl last : WorkEntry} (hperm : (rest ++ [bl, last]).Perm w) :
    workWeight (rest ++ [mergeEntries last bl]) = workWeight w := by
  rw [workWeight, workWeight, ← (hperm.map _).sum_eq]
  simp [mergeEntries, Nat.add_comm]

/-- The initial collection has the weight of the table. -/
theorem workWeight_initialWork (ft : FreqTable) : workWeight (initialWork ft) = FreqTable.total ft := by
  simp [workWeight, initialWork, FreqTable.total, Function.comp_def]

/-- The loop ends with the tree of the table, whose weight is the sum of all counts (R113). -/
theorem iterate_mergeStep_initialWork {ft : FreqTable} {root : Node} (hroot : buildTree ft = some root) :
    mergeStep^[ft.length - 1] (initialWork ft) = [(root, FreqTable.total ft)] := by
  have hne : ft ≠ [] := by rintro rfl; cases hroot
  obtain ⟨⟨root', weight⟩, hroot', hend, hweight⟩ :=
    buildTree_spec (P := fun w => workWeight w = FreqTable.total ft) hne (workWeight_initialWork ft)
      fun w rest bl last hw hperm _ => (workWeight_merge hperm).trans hw
  obtain rfl : root = root' := Option.some.inj (hroot.symm.trans hroot')
  rw [hend, ← hweight]
  simp [workWeight]

/-- A full binary tree has one internal node fewer than leaves. -/
theorem internals_add_one (n : Node) : n.internals + 1 = n.leaves.length := by
  induction n with
  | leaf x => rfl
  | internal l r ihl ihr =>
    rw [Node.internals, Node.leaves, List.length_append]
    omega

/-- One internal node fewer than entries (R113, R118 (c)). -/
theorem buildTree_internals {ft : FreqTable} {root : Node} (hroot : buildTree ft = some root) :
    root.internals + 1 = ft.length :=
  (internals_add_one root).trans (buildTree_leaves_length hroot)

/-- Settles O9: each turn takes one entry off and keeps the weight, so the last collection is the tree alone. -/
theorem buildLoopRunsOncePerMerge : Obligations.BuildLoopRunsOncePerMerge := by
  intro s h hne
  have hlen : (initialWork s.ft).length = s.ft.length := List.length_map _
  have hwork : initialWork s.ft ≠ [] := List.ne_nil_of_length_pos (hlen ▸ List.length_pos_of_ne_nil hne)
  obtain ⟨root, hroot⟩ := buildTree_exists hne
  refine ⟨?_, root, iterate_mergeStep_initialWork hroot, ?_, exec_build_of_buildTree h hroot⟩
  · simpa only [hlen] using iterate_length (initialWork s.ft) hwork
  · exact Nat.eq_sub_of_add_eq (buildTree_internals hroot)

/-! ## No left subtree is heavier than its right (R118 (d)) -/

/-- In a table of distinct symbols each entry's count is the count of its symbol. -/
theorem countOf_of_mem {ft : FreqTable} (hwf : FreqTable.WellFormed ft) {x : Symbol} {n : Nat} (hmem : (x, n) ∈ ft) :
    FreqTable.countOf ft x = n := by
  induction ft with
  | nil => cases hmem
  | cons e ft ih =>
    obtain ⟨y, m⟩ := e
    obtain ⟨hy, hwf⟩ := List.nodup_cons.1 hwf
    rcases List.mem_cons.1 hmem with heq | hmem
    · cases heq
      exact if_pos rfl
    · have hne : y ≠ x := fun heq => hy (List.mem_map.2 ⟨_, hmem, heq.symm⟩)
      exact (if_neg hne).trans (ih hwf hmem)

theorem weight_leaf (ft : FreqTable) (x : Symbol) : (Node.leaf x).weight ft = FreqTable.countOf ft x := by
  simp [Node.weight, Node.leaves]

theorem weight_internal (ft : FreqTable) (l r : Node) :
    (Node.internal l r).weight ft = l.weight ft + r.weight ft := by
  simp [Node.weight, Node.leaves]

/-- No left subtree of `n` is heavier than its right. -/
def LeftNotHeavier (ft : FreqTable) (n : Node) : Prop :=
  ∀ l r, Node.internal l r ∈ n.subtrees → l.weight ft ≤ r.weight ft

theorem leftNotHeavier_leaf (ft : FreqTable) (x : Symbol) : LeftNotHeavier ft (.leaf x) := by
  simp [LeftNotHeavier, Node.subtrees]

theorem leftNotHeavier_internal {ft : FreqTable} {l r : Node} (hl : LeftNotHeavier ft l) (hr : LeftNotHeavier ft r)
    (hle : l.weight ft ≤ r.weight ft) : LeftNotHeavier ft (.internal l r) := by
  intro l' r' hmem
  rw [Node.subtrees, List.mem_cons, List.mem_append] at hmem
  rcases hmem with heq | hmem | hmem
  · cases heq
    exact hle
  · exact hl l' r' hmem
  · exact hr l' r' hmem

/-- What the loop keeps of a working entry: its weight is its tree's, and no left subtree is heavier. -/
def EntryOrdered (ft : FreqTable) (e : WorkEntry) : Prop := e.1.weight ft = e.2 ∧ LeftNotHeavier ft e.1

theorem entryOrdered_initialWork {ft : FreqTable} (hwf : FreqTable.WellFormed ft) :
    ∀ e ∈ initialWork ft, EntryOrdered ft e :=
  List.forall_mem_map.2 fun e he =>
    ⟨(weight_leaf ft e.1).trans (countOf_of_mem hwf he), leftNotHeavier_leaf ft e.1⟩

/-- The left child of a merge is the lighter of the two (R112). -/
theorem entryOrdered_mergeEntries {ft : FreqTable} {last bl : WorkEntry} (hlast : EntryOrdered ft last)
    (hbl : EntryOrdered ft bl) (hle : last.2 ≤ bl.2) : EntryOrdered ft (mergeEntries last bl) := by
  obtain ⟨hlastWeight, hlastOrdered⟩ := hlast
  obtain ⟨hblWeight, hblOrdered⟩ := hbl
  refine ⟨?_, leftNotHeavier_internal hlastOrdered hblOrdered (by rwa [hlastWeight, hblWeight])⟩
  rw [mergeEntries, weight_internal, hlastWeight, hblWeight]

theorem buildTree_leftNotHeavier {ft : FreqTable} {root : Node} (hwf : FreqTable.WellFormed ft)
    (hroot : buildTree ft = some root) : LeftNotHeavier ft root := by
  have hne : ft ≠ [] := by rintro rfl; cases hroot
  obtain ⟨e, hroot', -, hordered⟩ :=
    buildTree_spec (P := fun w => ∀ e ∈ w, EntryOrdered ft e) hne (entryOrdered_initialWork hwf) <| by
      intro w rest bl last hw hperm hsorted e he
      have hold : ∀ e ∈ rest ++ [bl, last], EntryOrdered ft e := fun e he => hw e (hperm.mem_iff.1 he)
      rcases List.mem_append.1 he with he | he
      · exact hold e (List.mem_append_left _ he)
      · obtain rfl := List.mem_singleton.1 he
        obtain ⟨-, hlast, -⟩ := List.pairwise_append.1 hsorted
        exact entryOrdered_mergeEntries (hold last (by simp)) (hold bl (by simp)) (by simpa using hlast)
  obtain rfl : root = e.1 := Option.some.inj (hroot.symm.trans hroot')
  exact (hordered e List.mem_cons_self).2

/-- Settles O11: each property is one of the tree of the table, and BUILD stores it in every state with this table. -/
theorem buildCompletesWithFullTree : Obligations.BuildCompletesWithFullTree := by
  intro s h hne
  obtain ⟨root, hroot, hleaves⟩ := buildTree_leaves hne
  exact ⟨root, exec_build_of_buildTree h hroot, hleaves, buildTree_internals hroot,
    fun hwf => buildTree_leftNotHeavier hwf hroot, fun s' h' hft => exec_build_of_buildTree h' (hft ▸ hroot)⟩

/-! ## The empty table, the one-entry table, and the tie-break -/

/-- Settles O10: BUILD of the empty table is the raise, and after reset there is no tree to discard. -/
theorem buildOnEmptyTableRaises : Obligations.BuildOnEmptyTableRaises := by
  have hraise : ∀ s : State, s.err = 0 → s.ft = [] → exec .build s = .next { s.failed 1 {} with tree := none } :=
    fun s h hft => (exec_build_ok h).trans (congrArg _ (buildBody_nil hft))
  exact ⟨hraise, rfl, hraise State.reset rfl rfl⟩

/-- Settles O12: the four trees, each by running the loop. -/
theorem buildTieBreakConsequences : Obligations.BuildTieBreakConsequences :=
  ⟨exec_build_of_buildTree rfl (by decide), exec_build_of_buildTree rfl (by decide),
    exec_build_of_buildTree rfl (by decide), exec_build_of_buildTree rfl (by decide), by decide⟩

/-- Only a table of one entry has a leaf as its tree (R114). -/
theorem length_eq_one_of_buildTree_leaf {ft : FreqTable} {x : Symbol} (hroot : buildTree ft = some (.leaf x)) :
    ft.length = 1 := (buildTree_internals hroot).symm

/-- Settles O14: the loop of a single leaf has no turn; and a bare leaf has one leaf, so its table has one entry. -/
theorem oneEntryTableGivesBareLeaf : Obligations.OneEntryTableGivesBareLeaf := by
  refine ⟨fun s x n h hft => exec_build_of_buildTree h (by rw [hft]; rfl), fun s t x h hexec htree => ?_,
    fun s x h htree => ⟨Config.singleCodeBit, (exec_assign_ok h).trans (congrArg _ (assignBody_some htree))⟩⟩
  obtain rfl := next_state_unique hexec (exec_build_ok h)
  rcases buildBody_cases s with ⟨-, hbuild⟩ | ⟨-, root, hroot, hbuild⟩
  · rw [hbuild] at htree
    cases htree
  · obtain rfl : root = .leaf x := by simpa [hbuild] using htree
    exact length_eq_one_of_buildTree_leaf hroot

end Sys2Proof.Machine
end

section
/-! PROOF. The priority queue of R119 (41_tree_builder.md) follows BUILD's loop turn by turn: sorted by the key
`(weight, -age)`, the queue is the working collection in its stable descending order. -/

namespace Sys2Proof.Machine

/-! ## The key of the queue -/

/-- The order of the keys `(weight, -age)`. -/
theorem before_iff {x y : QueueEntry} :
    x.before y = true ↔ x.weight < y.weight ∨ (x.weight = y.weight ∧ y.age < x.age) := by
  simp [QueueEntry.before]

/-- `popFirst` takes an entry out that no other entry comes before. -/
theorem popFirst_spec (e : QueueEntry) (q : List QueueEntry) :
    ((popFirst e q).1 :: (popFirst e q).2).Perm (e :: q) ∧
      ∀ y ∈ (popFirst e q).2, ¬ y.before (popFirst e q).1 := by
  induction q generalizing e with
  | nil => exact ⟨.refl _, by simp [popFirst]⟩
  | cons f q ih =>
    obtain ⟨hperm, hleast⟩ := ih f
    simp only [popFirst]
    split
    · next hbefore =>
      refine ⟨.refl _, fun y hy (hye : y.before e) => ?_⟩
      rcases List.mem_cons.1 (hperm.mem_iff.2 hy) with rfl | hy
      · rw [before_iff] at hye hbefore; omega
      · have hyle := hleast y hy
        rw [before_iff] at hye hbefore hyle; omega
    · next hbefore =>
      refine ⟨(List.Perm.swap _ _ _).trans (hperm.cons e), fun y hy => ?_⟩
      rcases List.mem_cons.1 hy with rfl | hy
      · exact hbefore
      · exact hleast y hy

/-- `popFirst` takes out the one entry that comes before all others. -/
theorem popFirst_eq {e x : QueueEntry} {q r : List QueueEntry} (hperm : (e :: q).Perm (x :: r))
    (hleast : ∀ y ∈ r, x.before y) : (popFirst e q).1 = x ∧ (popFirst e q).2.Perm r := by
  obtain ⟨hpop, hfirst⟩ := popFirst_spec e q
  have hperm' := hpop.trans hperm
  have hx : (popFirst e q).1 = x := by
    rcases List.mem_cons.1 (hperm'.mem_iff.1 List.mem_cons_self) with heq | hr
    · exact heq
    · rcases List.mem_cons.1 (hperm'.mem_iff.2 List.mem_cons_self) with heq | hrest
      · exact heq.symm
      · exact absurd (hleast _ hr) (hfirst x hrest)
  rw [hx] at hperm'
  exact ⟨hx, hperm'.cons_inv⟩

/-! ## The stable sort by weight is the sort by the key -/

/-- The entry of BUILD's working collection that a queue entry stands for: the age is not in it. -/
def QueueEntry.toWork (x : QueueEntry) : WorkEntry := (x.node, x.weight)

/-- Among entries of equal weight the older ones stand first, as in BUILD's working collection (R111). -/
def OlderFirst (v : List QueueEntry) : Prop := v.Pairwise fun x y => x.weight = y.weight → x.age < y.age

/-- The entries in the reverse of the order in which they are popped. -/
def popOrderRev (v : List QueueEntry) : List QueueEntry := v.mergeSort fun x y => !x.before y

theorem popOrderRev_perm (v : List QueueEntry) : (popOrderRev v).Perm v := List.mergeSort_perm _ _

/-- No two keys are equal, so each entry is popped before all that stand in front of it. -/
theorem popOrderRev_sorted {v : List QueueEntry} (h : OlderFirst v) :
    (popOrderRev v).Pairwise fun x y => y.before x := by
  have hsorted : (popOrderRev v).Pairwise fun x y => (!x.before y) = true := by
    refine List.pairwise_mergeSort (fun a b c => ?_) (fun a b => ?_) v
    · simp only [Bool.not_eq_true', ← Bool.not_eq_true, before_iff]; omega
    · simp only [Bool.or_eq_true, Bool.not_eq_true', ← Bool.not_eq_true, before_iff]; omega
  have hkeys : (popOrderRev v).Pairwise fun x y => x.weight = y.weight → x.age ≠ y.age :=
    ((popOrderRev_perm v).pairwise_iff fun hne heq => (hne heq.symm).symm).2 (h.imp fun hlt heq => (hlt heq).ne)
  refine (hsorted.and hkeys).imp fun {x y} ⟨hxy, hne⟩ => ?_
  simp only [Bool.not_eq_true', ← Bool.not_eq_true, before_iff] at hxy ⊢
  omega

/-- The entries of one weight, older first, are in the order of their ages. -/
theorem olderFirst_filter {v : List QueueEntry} (h : OlderFirst v) (n : Nat) :
    (v.filter fun x => x.weight = n).Pairwise fun x y => x.age < y.age :=
  List.pairwise_filter.2 <| h.imp fun hlt hx hy => hlt ((of_decide_eq_true hx).trans (of_decide_eq_true hy).symm)

/-- The sort by the key is `sort_desc` (R13, R119): it is descending, and stable because ages grow along the
collection. -/
theorem popOrderRev_map_toWork {v : List QueueEntry} (h : OlderFirst v) :
    (popOrderRev v).map QueueEntry.toWork = sortDesc (v.map QueueEntry.toWork) := by
  have hsorted := popOrderRev_sorted h
  have holder : OlderFirst (popOrderRev v) := hsorted.imp fun hbefore heq => by rw [before_iff] at hbefore; omega
  refine sorted_unique (((popOrderRev_perm v).map _).trans (sortDesc_perm _).symm) ?_ (sortDesc_sorted _) fun n => ?_
  · refine List.pairwise_map.2 (hsorted.imp fun hbefore => ?_)
    rw [before_iff] at hbefore
    simp only [QueueEntry.toWork]
    omega
  · have hstable : (popOrderRev v).filter (fun x => x.weight = n) = v.filter fun x => x.weight = n :=
      List.Perm.eq_of_pairwise (fun _ _ _ _ hlt hgt => absurd hlt hgt.asymm) (olderFirst_filter holder n)
        (olderFirst_filter h n) ((popOrderRev_perm v).filter _)
    rw [sortDesc_filter, List.filter_map, List.filter_map]
    exact congrArg _ hstable

/-! ## The simulation -/

/-- The entry pushed for the merge of the two entries popped. -/
def mergePopped (age : Nat) (first second : QueueEntry) : QueueEntry where
  weight := first.weight + second.weight
  age := age
  node := .internal first.node second.node

theorem mergePopped_toWork (age : Nat) (first second : QueueEntry) :
    (mergePopped age first second).toWork = mergeEntries first.toWork second.toWork := rfl

/-- A turn of the queue's loop: the two entries last in the reverse pop order are merged. -/
theorem queueLoop_turn {q r : List QueueEntry} {x y : QueueEntry} (fuel age : Nat) (hperm : q.Perm (r ++ [y, x]))
    (hsorted : (r ++ [y, x]).Pairwise fun a b => b.before a) :
    ∃ rest, rest.Perm r ∧ queueLoop (fuel + 1) age q = queueLoop fuel (age + 1) (mergePopped age x y :: rest) := by
  obtain ⟨-, hyx, hr⟩ := List.pairwise_append.1 hsorted
  have hx : ∀ z ∈ y :: r, x.before z := by
    simpa using And.intro (by simpa using hyx) fun z hz => hr z hz x (by simp)
  have hpermx : q.Perm (x :: y :: r) :=
    hperm.trans (List.perm_append_comm.trans (.swap x y r))
  match q, hpermx with
  | [], hpermx => simp at hpermx
  | [e], hpermx => simpa using hpermx.length_eq
  | e :: f :: q, hpermx =>
    obtain ⟨hfirst, hothers⟩ := popFirst_eq hpermx hx
    simp only [queueLoop, hfirst]
    split
    · next hnil => simp [hnil] at hothers
    · next g others hcons =>
      rw [hcons] at hothers
      obtain ⟨hsecond, hrest⟩ := popFirst_eq hothers fun z hz => hr z hz y (by simp)
      exact ⟨_, hrest, by rw [hsecond]; rfl⟩

/-- The queue's loop stops as BUILD's does, at one entry. -/
theorem queueLoop_of_length_le_one {q : List QueueEntry} (fuel age : Nat) (h : q.length ≤ 1) :
    queueLoop fuel age q = q := by
  cases fuel with
  | zero => rfl
  | succ fuel =>
    match q, h with
    | [], _ => rfl
    | [_], _ => rfl

/-- A turn of BUILD's loop, on the collection of a queue's entries, merges the two that are popped first. -/
theorem mergeStep_map_toWork {v : List QueueEntry} (hv : OlderFirst v) (hlen : 1 < v.length) (age : Nat) :
    ∃ r x y, popOrderRev v = r ++ [y, x] ∧
      mergeStep (v.map QueueEntry.toWork) = (r ++ [mergePopped age x y]).map QueueEntry.toWork := by
  obtain ⟨rest, bl, last, hsort, hmerge⟩ := mergeStep_spec (w := v.map QueueEntry.toWork) (by simpa using hlen)
  rw [← popOrderRev_map_toWork hv] at hsort
  obtain ⟨r, u, hrev, rfl, hu⟩ := List.map_eq_append_iff.1 hsort
  obtain ⟨y, t, rfl, rfl, ht⟩ := List.map_eq_cons_iff.1 hu
  obtain ⟨x, rfl, rfl⟩ := List.map_eq_singleton_iff.1 ht
  exact ⟨r, x, y, hrev, by
    rw [hmerge, List.map_append, List.map_singleton, mergePopped_toWork]⟩

/-- After a turn the collection still has its older entries first: the sort put them so, and the merge is the
youngest. -/
theorem olderFirst_append_mergePopped {r : List QueueEntry} {x y : QueueEntry} {age : Nat}
    (hsorted : r.Pairwise fun a b => b.before a) (hage : ∀ z ∈ r, z.age < age) :
    OlderFirst (r ++ [mergePopped age x y]) := by
  refine List.pairwise_append.2 ⟨hsorted.imp fun hbefore heq => ?_, List.pairwise_singleton _ _,
    fun z hz m hm _ => ?_⟩
  · rw [before_iff] at hbefore; omega
  · obtain rfl := List.mem_singleton.1 hm
    exact hage z hz

/-- The two loops go together: while the queue holds, in any order, the entries of BUILD's working collection, with
the older first there, it holds the entries of the collection BUILD's loop ends with. -/
theorem queueLoop_simulates_mergeLoop (fuel age : Nat) {q v : List QueueEntry} (hperm : q.Perm v) (hv : OlderFirst v)
    (hage : ∀ x ∈ v, x.age < age) :
    ((queueLoop fuel age q).map QueueEntry.toWork).Perm (mergeLoop fuel (v.map QueueEntry.toWork)) := by
  induction fuel generalizing age q v with
  | zero => exact hperm.map _
  | succ fuel ih =>
    by_cases hlen : 1 < v.length
    · obtain ⟨r, x, y, hrev, hmerge⟩ := mergeStep_map_toWork hv hlen age
      have hsorted := popOrderRev_sorted hv
      have hpermRev := popOrderRev_perm v
      rw [hrev] at hsorted hpermRev
      have hageRest : ∀ z ∈ r, z.age < age := fun z hz => hage z (hpermRev.subset (List.mem_append_left _ hz))
      obtain ⟨rest, hrest, hturn⟩ := queueLoop_turn fuel age (hperm.trans hpermRev.symm) hsorted
      rw [hturn, mergeLoop, if_pos (by simpa using hlen), hmerge]
      refine ih (age + 1) ((hrest.cons _).trans (List.perm_append_singleton _ _).symm)
        (olderFirst_append_mergePopped (List.pairwise_append.1 hsorted).1 hageRest) fun z hz => ?_
      rcases List.mem_append.1 hz with hz | hz
      · exact (hageRest z hz).trans age.lt_succ_self
      · obtain rfl := List.mem_singleton.1 hz
        exact age.lt_succ_self
    · rw [queueLoop_of_length_le_one _ _ (hperm.length_eq.le.trans (not_lt.1 hlen)), mergeLoop,
        if_neg (by simpa using hlen)]
      exact hperm.map _

/-! ## The leaves, and the tree -/

/-- The queue starts with BUILD's initial collection. -/
theorem queueLeaves_map_toWork (age : Nat) (ft : FreqTable) :
    (queueLeaves age ft).map QueueEntry.toWork = initialWork ft := by
  induction ft generalizing age with
  | nil => rfl
  | cons e ft ih => exact congrArg _ (ih (age + 1))

/-- The leaves' ages are the positions of the table. -/
theorem queueLeaves_age {age : Nat} {ft : FreqTable} {x : QueueEntry} (hx : x ∈ queueLeaves age ft) :
    age ≤ x.age ∧ x.age < age + ft.length := by
  induction ft generalizing age with
  | nil => cases hx
  | cons e ft ih =>
    rcases List.mem_cons.1 hx with rfl | hx
    · simp
    · have := ih hx
      rw [List.length_cons]
      omega

theorem queueLeaves_olderFirst (age : Nat) (ft : FreqTable) : OlderFirst (queueLeaves age ft) := by
  induction ft generalizing age with
  | nil => exact .nil
  | cons e ft ih => exact .cons (fun x hx _ => (queueLeaves_age hx).1) (ih (age + 1))

/-- The queue's tree is BUILD's (R119). -/
theorem queueTree_eq_buildTree {ft : FreqTable} (hne : ft ≠ []) : queueTree ft = buildTree ft := by
  have hsim := queueLoop_simulates_mergeLoop ft.length ft.length (.refl _) (queueLeaves_olderFirst 0 ft)
    fun x hx => by simpa using (queueLeaves_age hx).2
  rw [queueLeaves_map_toWork] at hsim
  obtain ⟨e, -, hend, -⟩ := buildTree_spec (P := fun _ => True) hne trivial fun _ _ _ _ _ _ _ => trivial
  have hloop := (mergeLoop_initialWork hne).trans hend
  rw [hloop, List.perm_singleton] at hsim
  obtain ⟨x, hx, rfl⟩ := List.map_eq_singleton_iff.1 hsim
  rw [queueTree, buildTree, hloop, hx]
  rfl

/-- Settles O13: by the simulation, the queue ends with the entry BUILD's loop ends with. -/
theorem priorityQueueBuildsTheSameTree : Obligations.PriorityQueueBuildsTheSameTree := by
  intro s h hne
  rw [queueTree_eq_buildTree hne]
  exact exec_build_next h hne

end Sys2Proof.Machine
end

section
/-! PROOF. ASSIGN (42_code_assigner.md R130 to R136): the codes of a tree in lexicographic order, their lengths,
and their completeness: every bit sequence that goes on for ever runs from the root to a leaf. -/

namespace Sys2Proof.Machine

/-! ## The command -/

/-- ASSIGN of a tree, as the outcome of the command (R130). -/
theorem exec_assign_of_tree {s : State} {root : Node} (h : s.err = 0) (htree : s.tree = some root) :
    exec .assign s = .next { s with ct := codesOf root, tree := none } :=
  (exec_assign_ok h).trans (congrArg _ (assignBody_some htree))

/-- ASSIGN without a tree, as the outcome of the command (R133). -/
theorem exec_assign_without_tree {s : State} (h : s.err = 0) (htree : s.tree = none) :
    exec .assign s = .next (s.failed 1 {}) :=
  (exec_assign_ok h).trans (congrArg _ (assignBody_none htree))

/-- A BUILD that raises leaves no tree (R116). -/
theorem buildBody_tree_of_failed {s : State} (h : s.err = 0) (hfail : (buildBody s).err ≠ 0) :
    (buildBody s).tree = none := by
  obtain ⟨-, heq⟩ | ⟨-, root, -, heq⟩ := buildBody_cases s
  · rw [heq]
  · rw [heq, State.setTree_err] at hfail
    exact absurd h hfail

/-- Settles O16: no tree is the raise; a failed BUILD and a successful ASSIGN both leave no tree. -/
theorem assignWithoutTreeRaises : Obligations.AssignWithoutTreeRaises := by
  refine ⟨fun s => exec_assign_without_tree, rfl, fun s t h hexec hfail => ?_, fun s t h htree hexec => ?_⟩
  · obtain rfl := next_state_unique hexec (exec_build_ok h)
    exact buildBody_tree_of_failed h hfail
  · obtain ⟨root, hroot⟩ := Option.ne_none_iff_exists'.1 htree
    obtain rfl := next_state_unique hexec (exec_assign_of_tree h hroot)
    exact ⟨rfl, exec_assign_without_tree h rfl, rfl⟩

/-! ## The order of the codes (R131) -/

/-- Beyond a common path, a code to the left comes before a code to the right. -/
theorem append_false_lt_append_true (path c d : BitSeq) : path ++ [false] ++ c < path ++ [true] ++ d := by
  rw [List.append_assoc, List.append_assoc]
  exact List.append_left_lt (List.cons_lt_cons_iff.2 (.inl rfl))

/-- The walk lists its codes in increasing lexicographic order. -/
theorem walk_codes_sorted (n : Node) (path : BitSeq) : ((walk n path).map Prod.snd).Pairwise (· < ·) := by
  induction n generalizing path with
  | leaf x => exact List.pairwise_singleton _ _
  | internal l r hl hr =>
    rw [walk, List.map_append, List.pairwise_append]
    refine ⟨hl _, hr _, ?_⟩
    simp only [List.forall_mem_map]
    intro e he f hf
    obtain ⟨c, hc, -⟩ := (walk_mem l _ _ _).1 he
    obtain ⟨d, hd, -⟩ := (walk_mem r _ _ _).1 hf
    rw [hc, hd]
    exact append_false_lt_append_true path c d

theorem codesOf_codes_sorted (n : Node) : ((codesOf n).map Prod.snd).Pairwise (· < ·) := by
  cases n with
  | leaf x => exact List.pairwise_singleton _ _
  | internal l r => exact walk_codes_sorted _ _

/-- Settles O15: the table written is that of the tree, whose keys, paths and order the walk gives. -/
theorem assignListsTheLeafPaths : Obligations.AssignListsTheLeafPaths := by
  intro s root h htree
  refine ⟨codesOf root, exec_assign_of_tree h htree, codesOf_keys root, ?_, ?_, codesOf_codes_sorted root⟩
  · rintro x rfl
    rfl
  · rintro l r rfl x c
    exact codesOf_internal_mem l r x c

/-! ## The lengths of the codes (R135 (d)) -/

/-- Each edge of the walk adds one bit to the code and one to the depth. -/
theorem walk_lengths (n : Node) (path : BitSeq) :
    (walk n path).map (fun e => (e.1, e.2.length)) = n.leafDepths path.length := by
  induction n generalizing path with
  | leaf x => rfl
  | internal l r hl hr => simp [walk, Node.leafDepths, hl, hr]

/-! ## Completeness (R135 (e)) -/

/-- The bits are the first ones of the infinite sequence. -/
abbrev BeginsStream (stream : Nat → Bit) (bits : BitSeq) : Prop := bits = (List.range bits.length).map stream

/-- Of two beginnings of a stream one begins the other. -/
theorem beginsStream_total {stream : Nat → Bit} {a b : BitSeq} (ha : BeginsStream stream a)
    (hb : BeginsStream stream b) : a <+: b ∨ b <+: a := by
  have hle : ∀ {m n : Nat}, m ≤ n → (List.range m).map stream <+: (List.range n).map stream := by
    intro m n h
    rw [List.prefix_iff_eq_take, ← List.map_take, List.take_range]
    simp [h]
  rw [ha, hb]
  exact (Nat.le_total a.length b.length).imp hle hle

/-- Bits begin the stream that goes on with zeros after them. -/
theorem beginsStream_getD (bits : BitSeq) : BeginsStream (fun i => bits.getD i false) bits :=
  List.ext_getElem (by simp) fun i hi _ => by simp [hi]

/-- From any node, a stream of bits runs to a leaf. -/
theorem follow_stream_to_leaf (n : Node) (stream : Nat → Bit) :
    ∃ k x, n.follow ((List.range k).map stream) = some (.leaf x) := by
  induction n generalizing stream with
  | leaf x => exact ⟨0, x, rfl⟩
  | internal l r hl hr =>
    have hpath : ∀ k, (List.range (k + 1)).map stream =
        stream 0 :: (List.range k).map fun i => stream (i + 1) := by
      intro k
      simp [List.range_succ_eq_map, Function.comp_def]
    cases hbit : stream 0 with
    | false =>
      obtain ⟨k, x, hx⟩ := hl fun i => stream (i + 1)
      exact ⟨k + 1, x, by simpa [hpath, hbit, Node.follow] using hx⟩
    | true =>
      obtain ⟨k, x, hx⟩ := hr fun i => stream (i + 1)
      exact ⟨k + 1, x, by simpa [hpath, hbit, Node.follow] using hx⟩

/-- Every infinite bit sequence begins with a code of an internal root. -/
theorem codesOf_internal_covers (l r : Node) (stream : Nat → Bit) :
    ∃ e ∈ codesOf (.internal l r), BeginsStream stream e.2 := by
  obtain ⟨k, x, hx⟩ := follow_stream_to_leaf (.internal l r) stream
  exact ⟨(x, _), (codesOf_internal_mem l r x _).2 hx, by simp [BeginsStream]⟩

/-- No two entries of a tree have codes that begin one stream. -/
theorem codesOf_stream_unique {n : Node} {stream : Nat → Bit} {e f : Symbol × Code} (he : e ∈ codesOf n)
    (hf : f ∈ codesOf n) (hes : BeginsStream stream e.2) (hfs : BeginsStream stream f.2) : e = f := by
  rcases beginsStream_total hes hfs with hp | hp
  · exact codesOf_entries_prefix n he hf hp
  · exact (codesOf_entries_prefix n hf he hp).symm

/-- Bits that begin with no code of an internal root are a proper beginning of one: continued for ever, they begin with
one. -/
theorem properPrefix_of_noCode {l r : Node} {rest : BitSeq} (h : NoCode (codesOf (.internal l r)) rest) :
    ∃ e ∈ codesOf (.internal l r), rest <+: e.2 ∧ rest ≠ e.2 := by
  obtain ⟨e, he, hcode⟩ := codesOf_internal_covers l r fun i => rest.getD i false
  have hnot : ¬ e.2 <+: rest := h e he (codesOf_nonempty _ e he)
  exact ⟨e, he, (beginsStream_total (beginsStream_getD rest) hcode).resolve_right hnot,
    fun heq => hnot (heq ▸ List.prefix_refl _)⟩

/-- Every finite bit sequence is a sequence of codes of an internal root and a proper beginning of one: its greedy
parse. -/
theorem codesOf_internal_parses (l r : Node) (bits : BitSeq) :
    ∃ (entries : List (Symbol × Code)) (rest : BitSeq), (∀ e ∈ entries, e ∈ codesOf (.internal l r)) ∧
      bits = (entries.map Prod.snd).flatten ++ rest ∧
      ∃ e ∈ codesOf (.internal l r), rest <+: e.2 ∧ rest ≠ e.2 := by
  obtain ⟨entries, rest, hparse⟩ := greedyParse_exists (codesOf (.internal l r)) bits
  exact ⟨entries, rest, fun e he => (hparse.matched e he).1, hparse.bits, properPrefix_of_noCode hparse.leftover⟩

/-! ## The table as an operand of DECODE (R135 (c)) -/

/-- DECODE never finds an injective table ambiguous (R163). -/
theorem decodeBody_err_ne_ambiguous {s : State} (h : s.err = 0) (hinj : CodeTable.Injective s.ct) :
    (decodeBody s).err ≠ 3 := by
  obtain ⟨-, heq⟩ | ⟨_, _, -, ⟨-, heq⟩ | ⟨-, hamb, -⟩ | ⟨-, -, _, _, -, ⟨-, heq⟩ | ⟨-, heq⟩⟩⟩ :=
    decodeBody_cases s
  case inr.inr.inl => exact absurd hinj hamb
  case inr.inr.inr.inl => rw [heq, State.setDtext_err, h]; decide
  all_goals rw [heq, State.failed_err]; decide

/-- Settles O17: each clause is a fact about the table of the tree; completeness by following a stream down the tree. -/
theorem assignedTableIsPrefixFreeAndComplete : Obligations.AssignedTableIsPrefixFreeAndComplete := by
  intro s t root h htree hnodup hexec
  obtain rfl := next_state_unique hexec (exec_assign_of_tree h htree)
  have hinj : CodeTable.Injective (codesOf root) := prefixFree_injective (codesOf_prefixFree root)
  refine ⟨(codesOf_wf hnodup).1, fun x => by rw [CodeTable.HasSymbol, codesOf_keys],
    fun e he => List.length_pos_of_ne_nil (codesOf_nonempty root e he), codesOf_prefixFree root, hinj,
    fun v u hdecode => ?_, ?_, ?_, ?_, ?_, fun s' t' h' htree' hexec' => ?_⟩
  · obtain rfl := next_state_unique hdecode (exec_decode_ok (by exact h))
    exact decodeBody_err_ne_ambiguous h hinj
  · rintro l r rfl
    exact walk_lengths _ []
  · rintro x rfl
    rfl
  · rintro l r rfl
    refine ⟨fun stream => ?_, codesOf_internal_parses l r⟩
    obtain ⟨e, he, hcode⟩ := codesOf_internal_covers l r stream
    exact ⟨e, ⟨he, hcode⟩, fun f ⟨hf, hfcode⟩ => codesOf_stream_unique hf he hfcode hcode⟩
  · rintro x rfl e he
    obtain rfl : e = (x, [false]) := List.mem_singleton.1 he
    exact show ¬ [false] <+: [true] by decide
  · obtain rfl := next_state_unique hexec' (exec_assign_of_tree h' htree')
    rfl

end Sys2Proof.Machine
end

section
/-! PROOF. ENCODE (43_bit_packer.md R145 to R149): the two outcomes of the command, the bytes of a payload, and
`COUNT; BUILD; ASSIGN; ENCODE` of any text. -/

namespace Sys2Proof.Machine

/-! ## The command (R145, R146) -/

/-- ENCODE of a text whose symbols have codes, as the outcome of the command (R145). -/
theorem exec_encode_of_codes {s : State} {codes : List Code} (h : s.err = 0) (hkeys : CodeTable.KeysDistinct s.ct)
    (hcodes : CodesOfText s.ct s.text codes) :
    exec .encode s = .next (s.setOut (pack (payloadBits codes.flatten)) true) :=
  (exec_encode_ok h).trans (congrArg _ (encodeBody_ok hkeys hcodes))

/-- ENCODE of a text with an unknown symbol, as the outcome of the command (R146). -/
theorem exec_encode_of_unknown {s : State} {i : Nat} {x : Symbol} (h : s.err = 0)
    (hunknown : FirstUnknown s.ct s.text i x) :
    exec .encode s = .next (s.failed 2 { index := i, sym := some x }) :=
  (exec_encode_ok h).trans (congrArg _ (encodeBody_error hunknown))

/-- ENCODE of the empty text looks nothing up: the empty body, whatever the table holds (R149). -/
theorem exec_encode_of_empty {s : State} (h : s.err = 0) (htext : s.text = []) :
    exec .encode s = .next (s.setOut (pack (payloadBits [])) true) := by
  rw [exec_encode_ok h, encodeBody, htext]
  rfl

/-- Settles O18: the payload bits are header, codes and padding. -/
theorem encodeCompletesWithPayload : Obligations.EncodeCompletesWithPayload :=
  fun _ _ => exec_encode_of_codes

/-! ## COMPRESS of any text (R146, R149) -/

/-- COMPRESS of the empty text: BUILD raises, and ASSIGN and ENCODE are ignored (R116, R183). -/
theorem compress_of_empty (p : Config.Params) {s : State} (h : s.err = 0) (htext : s.text = []) :
    runEvents p (commands compress) s = .next { s.failed 1 {} with ft := [], tree := none } :=
  (compress_empty p h htext (commands [.assign, .encode])).trans (runEvents_gated p (by simp) _ (by decide))

/-- Settles O19: the translation stops at the first unknown symbol; the table of the counted text knows them all. -/
theorem encodeRaisesAtFirstUnknownSymbol : Obligations.EncodeRaisesAtFirstUnknownSymbol := by
  refine ⟨fun s i x => exec_encode_of_unknown, fun s x rest h hct htext => ?_, fun p s t h hrun => ?_⟩
  · have hunknown : FirstUnknown s.ct s.text 0 x := by simp [FirstUnknown, hct, htext]
    exact exec_encode_of_unknown h hunknown
  · by_cases htext : s.text = []
    · obtain rfl := next_state_unique hrun (compress_of_empty p h htext)
      exact show (1#3 : BitVec 3) ≠ 2 by decide
    · obtain ⟨root, codes, -, -, hnext⟩ := compress_next p h htext
      obtain rfl := next_state_unique hrun hnext
      rw [State.setOut_err, h]
      decide

/-- Settles O21: no look-up is made, and BUILD raises before ENCODE is reached. -/
theorem encodeOfEmptyText : Obligations.EncodeOfEmptyText := by
  have hbytes : pack (payloadBits []) = [0x08, 0x00] := by decide
  refine ⟨fun s h htext => ?_, fun p s => compress_of_empty p⟩
  rw [exec_encode_of_empty h htext, hbytes]
  rfl

/-! ## The size and the bytes of a payload (R147, R148) -/

/-- No multiple of 8 lies strictly between a body's length and the end of its padding (R74). -/
theorem add_padLength_le {len m : Nat} (hlt : len < m) (hm : m % 8 = 0) : len + padLength len ≤ m := by
  rw [padLength]
  omega

/-- Settles O22: the bounds are R147's, and no smaller multiple of 8 would do. -/
theorem padLengthIsLeastStrictRoundUp : Obligations.PadLengthIsLeastStrictRoundUp := by
  intro len
  obtain ⟨hlow, hhigh, hdvd⟩ := padLength_bounds len
  exact ⟨rfl, hlow, hhigh, Nat.mod_eq_zero_of_dvd hdvd, fun m => add_padLength_le⟩

/-- The number of bytes of a payload (R148). -/
theorem payload_length (body : BitSeq) : (pack (payloadBits body)).length = 2 + body.length / 8 := by
  rw [pack_length, payloadBits_length, Nat.mul_div_cancel_left _ (by decide)]

/-- The first byte of a payload, as a number (R75). -/
theorem payload_head?_toNat (body : BitSeq) :
    (pack (payloadBits body)).head?.map BitVec.toNat = some (padLength body.length) := by
  obtain ⟨rest, hcons, -⟩ := payload_cons body
  have hlt : padLength body.length < 2 ^ 8 := (padLength_bounds body.length).2.1.trans_lt (by decide)
  rw [hcons, List.head?_cons, Option.map_some, BitVec.toNat_ofNat, Nat.mod_eq_of_lt hlt]

/-- Zeros at the end of a byte sequence's bits are the low-order bits of its last byte (R52). -/
theorem getLsbD_getLast_of_zeros {bytes : List Byte} {z : Byte} {n k : Nat} (hlast : bytes.getLast? = some z)
    (hzeros : List.replicate n false <:+ unpack bytes) (hk : k < n) (hk8 : k < 8) : z.getLsbD k = false := by
  obtain ⟨bits, hbits⟩ := hzeros
  have hlen : bits.length + n = 8 * bytes.length := by
    rw [← unpack_length, ← hbits, List.length_append, List.length_replicate]
  have hpos : 0 < bytes.length := by omega
  have hbit : (unpack bytes)[8 * (bytes.length - 1) + (7 - k)]? = some (z.getLsbD (7 - (7 - k))) :=
    unpack_getElem? (by rw [← List.getLast?_eq_getElem?, hlast]) (by omega)
  rw [← hbits, List.getElem?_append_right (by omega), List.getElem?_replicate_of_lt (by omega),
    show 7 - (7 - k) = k by omega] at hbit
  exact (Option.some.inj hbit).symm

/-- The padding of a payload stands in its last byte (R148). -/
theorem payload_getLast? (body : BitSeq) :
    ∃ z, (pack (payloadBits body)).getLast? = some z ∧ ∀ k, k < padLength body.length → z.getLsbD k = false := by
  obtain ⟨rest, hcons, hlen, hbits⟩ := payload_cons body
  obtain ⟨hlow, hhigh, -⟩ := padLength_bounds body.length
  have hne : rest ≠ [] := List.ne_nil_of_length_pos (by omega)
  have hlast := List.getLast?_eq_some_getLast hne
  refine ⟨rest.getLast hne, ?_, fun k hk => getLsbD_getLast_of_zeros hlast ?_ hk (by omega)⟩
  · rw [hcons, List.getLast?_cons_of_ne_nil hne, hlast]
  · exact ⟨body, hbits.symm⟩

/-- Settles O20: the size is that of the payload bits, the first byte the header, the last byte's low end the padding. -/
theorem encodeOutputSizeAndLastByte : Obligations.EncodeOutputSizeAndLastByte := by
  intro s t codes h hkeys hcodes hexec len pad
  obtain rfl := next_state_unique hexec (exec_encode_of_codes h hkeys hcodes)
  rw [State.setOut_out, payload_length]
  obtain ⟨z, hlast, hzeros⟩ := payload_getLast? codes.flatten
  refine ⟨by omega, by omega, rfl, payload_head?_toNat codes.flatten, z, hlast, hzeros, fun hpad => ?_⟩
  exact BitVec.eq_of_getLsbD_eq fun k hk => (hzeros k (hk.trans_eq hpad.symm)).trans BitVec.getLsbD_zero.symm

end Sys2Proof.Machine
end

section
/-! PROOF. DECODE (44_decoder.md R160 to R170): the outcome of the command for each result of the checks and of the
greedy parse, what the parse emits, the bits it does not see, and the round trip of ENCODE and DECODE. -/

namespace Sys2Proof.Machine

/-! ## The outcomes of the command, in the order of the checks (R170) -/

section Outcomes
variable {s : State} {h : Byte} {rest : List Byte}

/-- A stream that decodes (R160): only `DTEXT` and its flag are written. -/
theorem exec_decode_of_text {v : List Symbol} (hok : s.err = 0) (hstream : decodeStream s.ct s.input = .text v) :
    exec .decode s = .next (s.setDtext v true) := by
  rw [exec_decode_ok hok, decodeBody, hstream]

/-- No header (R161). -/
theorem exec_decode_of_noHeader (hok : s.err = 0) (hin : s.input = []) :
    exec .decode s = .next (s.failed 4 { sub := 1 }) := by
  rw [exec_decode_ok hok, decodeBody, hin, decodeStream_nil]
  rfl

/-- A header greater than the bits after it (R162). -/
theorem exec_decode_of_padTooLarge (hok : s.err = 0) (hin : s.input = h :: rest) (hpad : 8 * rest.length < h.toNat) :
    exec .decode s = .next (s.failed 4 { sub := 2 }) := by
  rw [exec_decode_ok hok, decodeBody, hin, decodeStream_cons, if_pos hpad]
  rfl

/-- Two symbols with one code (R163). -/
theorem exec_decode_of_ambiguous (hok : s.err = 0) (hin : s.input = h :: rest) (hpad : h.toNat ≤ 8 * rest.length)
    (hamb : ¬ CodeTable.Injective s.ct) : exec .decode s = .next (s.failed 3 {}) := by
  rw [exec_decode_ok hok, decodeBody, hin, decodeStream_cons, if_neg (by omega), if_pos (ambiguous_eq_true.2 hamb)]
  rfl

/-- A body that is parsed to its end (R164). -/
theorem exec_decode_of_parse (hok : s.err = 0) (hin : s.input = h :: rest) (hpad : h.toNat ≤ 8 * rest.length)
    (hinj : CodeTable.Injective s.ct) {entries : List (Symbol × Code)}
    (hparse : GreedyParse s.ct (streamBody h rest) entries []) :
    exec .decode s = .next (s.setDtext (entries.map Prod.fst) true) :=
  exec_decode_of_text hok (by rw [hin, decodeStream_scan hpad hinj hparse, if_pos rfl])

/-- A body that ends inside a candidate (R165). -/
theorem exec_decode_of_leftover (hok : s.err = 0) (hin : s.input = h :: rest) (hpad : h.toNat ≤ 8 * rest.length)
    (hinj : CodeTable.Injective s.ct) {entries : List (Symbol × Code)} {cand : BitSeq}
    (hparse : GreedyParse s.ct (streamBody h rest) entries cand) (hcand : cand ≠ []) :
    exec .decode s = .next (s.failed 4 { sub := 3, index := 8 * rest.length - h.toNat - cand.length }) := by
  rw [exec_decode_ok hok, decodeBody, hin, decodeStream_scan hpad hinj hparse, if_neg hcand]
  rfl

end Outcomes

/-- The leftover candidate is a part of the body. -/
theorem greedyParse_cand_length_le {ct : CodeTable} {body : BitSeq} {entries : List (Symbol × Code)} {cand : BitSeq}
    (hparse : GreedyParse ct body entries cand) : cand.length ≤ body.length := by
  rw [hparse.bits, List.length_append]
  exact Nat.le_add_left _ _

/-- The empty body is parsed to its end, with no match. -/
theorem greedyParse_nil (ct : CodeTable) : GreedyParse ct [] [] [] :=
  ⟨rfl, by simp, fun _ _ hne hp => hne (List.prefix_nil.1 hp)⟩

/-- Settles O23: each check's outcome; past them there is a greedy parse, and a leftover of at least one bit begins
before the end of the body. -/
theorem decodeChecksInOrder : Obligations.DecodeChecksInOrder := by
  intro s hok
  refine ⟨exec_decode_of_noHeader hok, fun h rest hin => ⟨exec_decode_of_padTooLarge hok hin,
    exec_decode_of_ambiguous hok hin, fun hpad hinj => ?_⟩⟩
  obtain ⟨entries, cand, hparse⟩ := greedyParse_exists s.ct (streamBody h rest)
  by_cases hcand : cand = []
  · subst hcand
    exact .inl ⟨_, exec_decode_of_parse hok hin hpad hinj hparse⟩
  · have hpos : 0 < cand.length := List.length_pos_of_ne_nil hcand
    have hle := greedyParse_cand_length_le hparse
    rw [streamBody_length] at hle
    exact .inr ⟨_, by omega, exec_decode_of_leftover hok hin hpad hinj hparse hcand⟩

/-- Settles O24: the body has a greedy parse, and under an injective table any such parse is the scan's. -/
theorem decodeFollowsTheGreedyParse : Obligations.DecodeFollowsTheGreedyParse := by
  intro s h rest hok hin hpad hinj
  refine ⟨greedyParse_exists s.ct (streamBody h rest), fun entries cand hparse => ⟨?_, ?_⟩⟩
  · rintro rfl
    exact exec_decode_of_parse hok hin hpad hinj hparse
  · exact exec_decode_of_leftover hok hin hpad hinj hparse

/-- Settles O26: of an empty body the parse with no match is the greedy one. -/
theorem decodeOfEmptyBodyCompletes : Obligations.DecodeOfEmptyBodyCompletes := by
  have hempty : ∀ (s : State) (h : Byte) (rest : List Byte), s.err = 0 → s.input = h :: rest →
      h.toNat = 8 * rest.length → CodeTable.Injective s.ct → exec .decode s = .next (s.setDtext [] true) := by
    intro s h rest hok hin hpad hinj
    have hbody : streamBody h rest = [] := List.eq_nil_of_length_eq_zero (by rw [streamBody_length]; omega)
    exact exec_decode_of_parse (entries := []) hok hin hpad.le hinj (hbody ▸ greedyParse_nil s.ct)
  refine ⟨hempty, fun s hok hinj hin => ?_⟩
  obtain hin | hin := hin <;> exact hempty s _ _ hok hin rfl hinj

/-! ## What is emitted (R166) -/

/-- A successful DECODE has parsed the body to its end. -/
theorem decodeBody_ok_parse {s : State} (hok : (decodeBody s).err = 0) :
    ∃ h rest entries, s.input = h :: rest ∧ GreedyParse s.ct (streamBody h rest) entries [] ∧
      decodeBody s = s.setDtext (entries.map Prod.fst) true := by
  obtain ⟨-, heq⟩ | ⟨h, rest, hin, ⟨-, heq⟩ | ⟨-, -, heq⟩ | ⟨-, -, entries, cand, hparse, ⟨rfl, heq⟩ | ⟨-, heq⟩⟩⟩ :=
    decodeBody_cases s
  case inr.inr.inr.inl => exact ⟨h, rest, entries, hin, hparse, heq⟩
  all_goals
    rw [heq, State.failed_err] at hok
    exact absurd hok (by decide)

/-- Settles O27: each emitted symbol is that of a matched entry of the parse. -/
theorem longerCodeIsNeverEmitted : Obligations.LongerCodeIsNeverEmitted := by
  intro s t hok hexec ht x hx
  obtain rfl := next_state_unique hexec (exec_decode_ok hok)
  obtain ⟨h, rest, entries, -, hparse, heq⟩ := decodeBody_ok_parse ht
  rw [heq, State.setDtext_dtext] at hx
  obtain ⟨⟨x, c⟩, he, rfl⟩ := List.mem_map.1 hx
  exact ⟨c, hparse.matched _ he⟩

/-- Settles O28: the block run on each stream; the third is the payload of two texts, with the table of the second. -/
theorem foreignTableMayGoUndetected : Obligations.ForeignTableMayGoUndetected := by
  refine ⟨rfl, rfl, _, _, _, rfl, rfl, ?_, ?_, ?_, rfl, ?_, ?_⟩ <;> decide

/-! ## The stripped bits (R162, R167) -/

/-- The stream is seen through its header, its length and its body alone. -/
theorem decodeStream_eq_of_body {ct : CodeTable} {h : Byte} {rest rest' : List Byte}
    (hlen : rest'.length = rest.length) (hbody : streamBody h rest' = streamBody h rest) :
    decodeStream ct (h :: rest') = decodeStream ct (h :: rest) := by
  rw [decodeStream_cons, decodeStream_cons, hlen, hbody]

/-- Streams that decode alike leave states that differ in `IN` alone. -/
theorem decodeBody_setInput {s : State} {input input' : List Byte}
    (heq : decodeStream s.ct input' = decodeStream s.ct input) :
    (decodeBody (s.setInput input')).setInput input = decodeBody (s.setInput input) := by
  simp only [decodeBody, State.setInput_ct, State.setInput_input, heq]
  cases decodeStream s.ct input <;> rfl

/-- DECODE keeps `IN` (R63). -/
theorem decodeBody_input (s : State) : (decodeBody s).input = s.input := by
  obtain heq | ⟨-, heq⟩ := decodeBody_frame s <;> rw [heq] <;> rfl

/-- Settles O25: the two streams have one body; while a failure is recorded neither is looked at. -/
theorem strippedBitsAreNotExamined : Obligations.StrippedBitsAreNotExamined := by
  intro s h rest rest' _ hlen hbody t t' hexec hexec'
  by_cases hok : s.err = 0
  · have hbody' : streamBody h rest' = streamBody h rest := by rw [streamBody, hlen, hbody, streamBody]
    obtain rfl := next_state_unique hexec (exec_decode_ok (by exact hok))
    obtain rfl := next_state_unique hexec' (exec_decode_ok (by exact hok))
    rw [decodeBody_input]
    exact decodeBody_setInput (decodeStream_eq_of_body hlen hbody')
  · obtain rfl := next_state_unique hexec (exec_failed (by decide) (by decide) (by exact hok))
    obtain rfl := next_state_unique hexec' (exec_failed (by decide) (by decide) (by exact hok))
    rfl

/-! ## The round trip (R169) -/

/-- The copy of `OUT` to `IN` (R191) and DECODE, of a stream that decodes. -/
theorem runEvents_copy_decode {p : Config.Params} {s : State} {text : List Symbol} (hok : s.err = 0)
    (hstream : decodeStream s.ct s.out = .text text) (hbound : withinBound p.maxInLen s.out.length = true) :
    runEvents p (.write .inputFromOut :: commands [.decode]) s = .next ((s.setInput s.out).setDtext text true) := by
  have hwrite : writeRefusal p s.out .inputFromOut = none := by rw [writeRefusal, if_pos hbound]
  have hdecode : exec .decode (s.setInput s.out) = .next ((s.setInput s.out).setDtext text true) :=
    exec_decode_of_text hok hstream
  exact (runEvents_write hwrite).trans (runEvents_command hdecode)

/-- ENCODE under a prefix-free table with a code for every symbol leaves a payload that the copy and DECODE bring
back to the text. -/
theorem runEvents_encode_copy_decode {p : Config.Params} {s : State} {codes : List Code} (hok : s.err = 0)
    (hwf : CodeTable.WellFormed s.ct) (hprefix : CodeTable.PrefixFree s.ct) (hcodes : CodesOfText s.ct s.text codes)
    (hbound : ∀ u, exec .encode s = .next u → withinBound p.maxInLen u.out.length = true) :
    ∃ t, runEvents p (commands [.encode] ++ .write .inputFromOut :: commands [.decode]) s = .next t ∧
      t.dtext = s.text ∧ t.dtextValid = true ∧ t.err = 0 := by
  have hencode := exec_encode_of_codes hok hwf.1 hcodes
  have hstream := decodeStream_payload hwf hprefix hcodes
  rw [runEvents_append (runEvents_command hencode)]
  exact ⟨_, runEvents_copy_decode hok hstream (hbound _ hencode), rfl, rfl, hok⟩

/-- Settles O29: `COUNT; BUILD; ASSIGN` leaves the prefix-free table of the text's tree, with a code for every symbol,
so the second half, of any such table, gives the first. -/
theorem decodeReturnsTheEncodedText : Obligations.DecodeReturnsTheEncodedText := by
  refine ⟨fun p s hok hne hbound => ?_, fun p s hok hwf hprefix hsymbols hbound => ?_⟩
  · obtain ⟨root, codes, -, hnodup, hcodes, hrun⟩ := compress_steps p hok hne
    have htrip := runEvents_encode_copy_decode (p := p)
      (s := { s with ft := countText s.text, ct := codesOf root, tree := none }) hok (codesOf_wf hnodup)
      (codesOf_prefixFree root) hcodes
      fun u hencode => hbound u ((hrun (commands [.encode])).trans (runEvents_command hencode))
    rwa [← hrun] at htrip
  · obtain ⟨codes, hcodes⟩ := codesOfText_exists hsymbols
    exact runEvents_encode_copy_decode hok hwf hprefix hcodes hbound

end Sys2Proof.Machine
end

section
/-! PROOF. The control commands CLRERR and RESET, the error gate, the commands issued before their producers, the
pseudo-commands, and the host port (45_control_and_host.md R180 to R193). -/

namespace Sys2Proof.Machine

/-! ## CLRERR and RESET (R180, R181, R230) -/

/-- Where no failure is recorded there is nothing to clear (R180). -/
theorem clearError_of_ok {s : State} (herr : s.err = 0) (hinfo : s.errInfo = {}) : clearError s = s :=
  calc clearError s
      = s.setErr s.err s.errInfo := by rw [herr, hinfo]; rfl
    _ = s := rfl

/-- `ERRF` reads as 0 exactly while no failure is recorded (R32). -/
theorem status_bit0_eq_false {s : State} : (status s).getLsbD 0 = false ↔ s.err = 0 := by
  rw [status_bit0, Bool.eq_false_iff, Ne, errFlag_eq_true, not_not]

/-- CLRERR is never ignored (R180). -/
theorem exec_clrerr (s : State) : exec .clrerr s = .next (clearError s) := rfl

/-- RESET is never ignored (R181). -/
theorem exec_reset (s : State) : exec .reset s = .next (resetItems s) := rfl

/-- Settles O31: the command is `clearError`, whose writes are those of `ERR` and `ERR_INFO`. -/
theorem clrerrClearsOnlyTheError : Obligations.ClrerrClearsOnlyTheError := by
  refine ⟨decode_encode .clrerr, exec_clrerr, fun s herr hinfo => ?_, fun s t h => ?_⟩
  · rw [exec_clrerr, clearError_of_ok herr hinfo]
  · obtain rfl := next_state_unique h (exec_clrerr s)
    exact status_bit0_eq_false.2 (clearError_err s)

/-- After a reset no flag of `STATUS` is set (R32). -/
theorem status_resetItems (s : State) : status (resetItems s) = 0x00 := by
  simp [status_eq]

/-- Settles O32: the command and the event are both `resetItems`. -/
theorem resetPutsEveryItemAtItsResetValue : Obligations.ResetPutsEveryItemAtItsResetValue :=
  ⟨decode_encode .reset, fun _ s => ⟨resetItems s, exec_reset s, rfl, rfl, rfl, status_resetItems s⟩⟩

/-! ## The host port (R188 to R193) -/

section HostPort
variable {p : Config.Params} {w : HostWrite} {s : State}

/-- A host write with no ground of refusal replaces its buffer. -/
theorem hostWrite_of_admitted (h : writeRefusal p s.out w = none) : hostWrite p w s = .next (storeBuffer w s) := by
  rw [hostWrite, h]

/-- A host write with a ground of refusal is refused by it (R193 (c)). -/
theorem hostWrite_of_refusal {r : Refusal} (h : writeRefusal p s.out w = some r) : hostWrite p w s = .refused r := by
  rw [hostWrite, h]

/-- A host write that is not admitted is refused. -/
theorem hostWrite_of_not_admitted (h : writeRefusal p s.out w ≠ none) : ∃ r, hostWrite p w s = .refused r :=
  (Option.ne_none_iff_exists'.1 h).imp fun _ => hostWrite_of_refusal

/-- No buffer the host writes is `ERR` or `ERR_INFO` (R193 (b)). -/
theorem storeBuffer_setErr (w : HostWrite) (s : State) (c : BitVec 3) (i : ErrInfo) :
    storeBuffer w (s.setErr c i) = (storeBuffer w s).setErr c i := by
  cases w <;> rfl

/-- A host write does not look at `ERR` and `ERR_INFO`, and keeps them (R183). -/
theorem hostWrite_setErr {t : State} (h : hostWrite p w s = .next t) (c : BitVec 3) (i : ErrInfo) :
    hostWrite p w (s.setErr c i) = .next (t.setErr c i) := by
  obtain ⟨hok, rfl⟩ := hostWrite_next h
  rw [← storeBuffer_setErr]
  exact hostWrite_of_admitted hok

end HostPort

/-- A host read is never ignored; the value goes to the host (R192). -/
theorem applyEvent_read (p : Config.Params) (x : ReadPort) (s : State) :
    applyEvent p (.read x) s = .next { s with answer := some (hostValue x s) } := rfl

/-- Settles O47: a write is admitted exactly if its value is of the buffer's type and within the bound. -/
theorem hostWritesReplaceOneBufferOrAreRefused : Obligations.HostWritesReplaceOneBufferOrAreRefused := by
  refine fun p s => ⟨fun v hsym hbound => ?_, fun v hsym hbound => ?_, fun v hsym => ?_, fun v hsym hwf hbound => ?_,
    fun v h => ?_, fun v hsym hwf hbound => ?_, fun v h => ?_, fun v hbound => ?_, fun v hbound => ?_, rfl⟩
  · exact hostWrite_of_admitted (writeRefusal_text.2 ⟨hsym, hbound⟩)
  · exact hostWrite_of_refusal (by simp [writeRefusal, hsym, hbound])
  · exact hostWrite_of_refusal (by simp [writeRefusal, hsym])
  · exact hostWrite_of_admitted (writeRefusal_ft.2 ⟨hsym, hwf, hbound⟩)
  · exact hostWrite_of_not_admitted (mt writeRefusal_ft.1 h)
  · exact hostWrite_of_admitted (writeRefusal_ct.2 ⟨hsym, hwf, hbound⟩)
  · exact hostWrite_of_not_admitted (mt writeRefusal_ct.1 h)
  · exact hostWrite_of_admitted (by rw [writeRefusal, if_pos hbound])
  · exact hostWrite_of_refusal (by simp [writeRefusal, hbound])

/-- Settles O48: the value returned is that of the item named. -/
theorem hostReadsReturnTheCurrentValue : Obligations.HostReadsReturnTheCurrentValue :=
  fun p s => ⟨applyEvent_read p .text s, applyEvent_read p .ft s, applyEvent_read p .tree s, applyEvent_read p .ct s,
    applyEvent_read p .input s, applyEvent_read p .out s, applyEvent_read p .dtext s, applyEvent_read p .status s,
    applyEvent_read p .err s, applyEvent_read p .errInfo s⟩

/-! ## The error gate (R183) -/

/-- While a failure is recorded every word but CLRERR's and RESET's is ignored, whether or not it names a command. -/
theorem issue_gated {c : Byte} {s : State} (herr : s.err ≠ 0) (hclr : c ≠ 0x0E) (hrst : c ≠ 0x0F) :
    issue c s = .next s := by
  obtain ⟨t, ht⟩ := issue_total c s
  obtain rfl := issue_gated_frame ht herr (mt decode_eq_instr_iff.1 hclr) (mt decode_eq_instr_iff.1 hrst)
  exact ht

/-- Settles O33: the gate is of the command port alone; host actions neither read nor write `ERR`. -/
theorem gateIgnoresAllButClrerrAndReset : Obligations.GateIgnoresAllButClrerrAndReset :=
  ⟨fun _ _ => issue_gated, fun _ _ s _ h => hostWrite_setErr h s.err s.errInfo, applyEvent_read⟩

/-! ## Commands issued before their producers (R184) -/

/-- Under the empty table nothing is matched: the whole body is left over (R164). -/
theorem greedyParse_emptyTable (body : BitSeq) : GreedyParse [] body [] body :=
  ⟨rfl, by simp, by simp⟩

/-- DECODE of a non-empty body under the empty table fails at the start of the body (R165, R184). -/
theorem exec_decode_of_emptyTable {s : State} {h : Byte} {rest : List Byte} (hok : s.err = 0) (hct : s.ct = [])
    (hin : s.input = h :: rest) (hpad : h.toNat < 8 * rest.length) :
    exec .decode s = .next (s.failed 4 { sub := 3, index := 0 }) := by
  have hlen := streamBody_length h rest
  have hbody : streamBody h rest ≠ [] := List.ne_nil_of_length_pos (by omega)
  have hinj : CodeTable.Injective s.ct := by simp [hct]
  rw [exec_decode_of_leftover hok hin hpad.le hinj (hct ▸ greedyParse_emptyTable _) hbody, hlen, Nat.sub_self]

/-- Settles O34: each row is the outcome of its command for an empty operand. -/
theorem outOfOrderCommands : Obligations.OutOfOrderCommands := by
  obtain ⟨-, hencodeWithoutTable, -⟩ := encodeRaisesAtFirstUnknownSymbol
  obtain ⟨hencodeOfEmptyText, -⟩ := encodeOfEmptyText
  refine fun s h => ⟨fun htext => ?_, fun hft => ?_, exec_assign_without_tree h,
    fun x rest => hencodeWithoutTable s x rest h, hencodeOfEmptyText s h, exec_decode_of_noHeader h,
    fun _ _ => exec_decode_of_emptyTable h⟩
  · have hcounted : countText s.text = [] := by rw [htext]; rfl
    rw [exec_count_ok h, hcounted]
    rfl
  · rw [exec_build_ok h, buildBody_nil hft]

/-! ## The pseudo-commands (R185 to R187) -/

/-- CODETABLE of a non-empty text: what it leaves, by the tree of the counted table (R185). -/
theorem codetable_next (p : Config.Params) {s : State} (h : s.err = 0) (hne : s.text ≠ []) :
    ∃ root, buildTree (countText s.text) = some root ∧
      runEvents p (commands codetable) s =
        .next { s with ft := countText s.text, ct := codesOf root, tree := none } := by
  obtain ⟨root, -, hroot, -, -, hrun⟩ := compress_steps p h hne
  exact ⟨root, hroot, hrun []⟩

/-- CODETABLE of the empty text: BUILD raises, and ASSIGN is ignored (R116, R183). -/
theorem codetable_of_empty (p : Config.Params) {s : State} (h : s.err = 0) (htext : s.text = []) :
    runEvents p (commands codetable) s = .next { s.failed 1 {} with ft := [], tree := none } :=
  (compress_empty p h htext (commands [.assign])).trans (runEvents_gated p (by simp) _ (by decide))

/-- Settles O35: the table is the codes of the tree that BUILD gives the counted table. -/
theorem codetableDerivesTheTableOfTheText : Obligations.CodetableDerivesTheTableOfTheText := by
  refine ⟨rfl, fun p s h => ⟨fun hne => ?_, codetable_of_empty p h⟩⟩
  obtain ⟨root, hroot, hrun⟩ := codetable_next p h hne
  rw [countText_eq] at hroot hrun
  exact ⟨codesOf root, root, hrun, exec_build_of_buildTree h hroot, exec_assign_of_tree h rfl⟩

/-- Settles O36: COMPRESS builds the tree that CODETABLE builds, and ENCODE's bytes are the payload's bits. -/
theorem compressLeavesThePayload : Obligations.CompressLeavesThePayload := by
  refine ⟨rfl, fun p s h => ⟨fun hne => ?_, compress_of_empty p h⟩⟩
  obtain ⟨root, hroot, htable⟩ := codetable_next p h hne
  obtain ⟨root', codes, hroot', hcodes, hpayload⟩ := compress_next p h hne
  obtain rfl : root = root' := Option.some.inj (hroot.symm.trans hroot')
  exact ⟨_, _, codes, htable, hpayload, h, rfl, rfl, hcodes, unpack_payload codes.flatten⟩

/-- A run of one command is the command. -/
theorem runEvents_singleCommand (p : Config.Params) (i : Instr) (s : State) :
    runEvents p (commands [i]) s = exec i s := by
  obtain ⟨t, ht⟩ := exec_total i s
  rw [runEvents_command ht, ht]
  rfl

/-- Settles O37: the expansion has one command. -/
theorem decompressIsDecode : Obligations.DecompressIsDecode :=
  ⟨rfl, fun p s => runEvents_singleCommand p .decode s⟩

end Sys2Proof.Machine
end

section
/-! PROOF. Failures (60_exceptions.md R200 to R211, R218): the causes of a raise and the state it leaves; what a command
word does to `ERR` and `ERR_INFO`; that a cause is enough for the raise, and is met again after CLRERR. -/

namespace Sys2Proof.Machine

/-! ## The causes of a raise and the state it leaves (R200, R206, R218) -/

/-- What has to hold in `s` for a word that decodes to `d` to raise, with the kind and the detail raised. -/
inductive RaiseCause (s : State) : Decoded → FailKind → ErrInfo → Prop
  /-- R201: BUILD of the empty frequency table. -/
  | noEntries (hft : s.ft = []) : RaiseCause s (.instr .build) .emptyInput {}
  /-- R201: ASSIGN without a tree. -/
  | noTree (htree : s.tree = none) : RaiseCause s (.instr .assign) .emptyInput {}
  /-- R202: ENCODE of a text with a symbol that has no code. -/
  | unknownSymbol {i : Nat} {x : Symbol} (hunknown : FirstUnknown s.ct s.text i x) :
      RaiseCause s (.instr .encode) .unknownSymbol { index := i, sym := some x }
  /-- R204: DECODE of a stream without a header. -/
  | noHeader (hin : s.input = []) : RaiseCause s (.instr .decode) .undecodableStream { sub := 1 }
  /-- R204: DECODE of a stream whose header exceeds the bits after it. -/
  | padTooLarge {h : Byte} {rest : List Byte} (hin : s.input = h :: rest) (hpad : 8 * rest.length < h.toNat) :
      RaiseCause s (.instr .decode) .undecodableStream { sub := 2 }
  /-- R203: DECODE under a table with one code for two symbols. -/
  | ambiguousTable {h : Byte} {rest : List Byte} (hin : s.input = h :: rest) (hpad : h.toNat ≤ 8 * rest.length)
      (hamb : ¬ CodeTable.Injective s.ct) : RaiseCause s (.instr .decode) .ambiguousCodeTable {}
  /-- R204: DECODE of a body that ends inside a candidate. -/
  | leftover {h : Byte} {rest : List Byte} {entries : List (Symbol × Code)} {cand : BitSeq} (hin : s.input = h :: rest)
      (hpad : h.toNat ≤ 8 * rest.length) (hinj : CodeTable.Injective s.ct)
      (hparse : GreedyParse s.ct (streamBody h rest) entries cand) (hcand : cand ≠ []) :
      RaiseCause s (.instr .decode) .undecodableStream
        { sub := 3, index := 8 * rest.length - h.toNat - cand.length }
  /-- R205: a word that names no command. -/
  | noCommand {op : Byte} : RaiseCause s (.reserved op) .illegalCommand { index := op.toNat }

/-- The state after a raise by a word that decodes to `d` (R206): BUILD has discarded the tree before it raises. -/
def State.failedBy (s : State) (d : Decoded) (k : FailKind) (info : ErrInfo) : State :=
  (s.failed k.code info).setTree (if d = .instr .build then none else s.tree)

section Causes
variable {s : State} {d : Decoded} {k : FailKind} {info : ErrInfo}

/-- The state after a raise, by whether the word was BUILD's. -/
theorem failedBy_eq_ite (s : State) (d : Decoded) (k : FailKind) (info : ErrInfo) :
    s.failedBy d k info =
      if d = .instr .build then { s.failed k.code info with tree := none } else s.failed k.code info := by
  unfold State.failedBy
  split <;> rfl

/-- The same raise after CLRERR leaves the same state again: what it empties is empty already. -/
theorem failedBy_clearError_failedBy (s : State) (d : Decoded) (k : FailKind) (info : ErrInfo) :
    (clearError (s.failedBy d k info)).failedBy d k info = s.failedBy d k info := by
  simp only [failedBy_eq_ite]
  split <;> rfl

/-- A raise and CLRERR leave every operand of the command that raised as it was, so the cause is still there (R211). -/
theorem RaiseCause.after_clearError : RaiseCause s d k info → RaiseCause (clearError (s.failedBy d k info)) d k info
  | .noEntries hft => .noEntries hft
  | .noTree htree => .noTree htree
  | .unknownSymbol hunknown => .unknownSymbol hunknown
  | .noHeader hin => .noHeader hin
  | .padTooLarge hin hpad => .padTooLarge hin hpad
  | .ambiguousTable hin hpad hamb => .ambiguousTable hin hpad hamb
  | .leftover hin hpad hinj hparse hcand => .leftover hin hpad hinj hparse hcand
  | .noCommand => .noCommand

/-- A command with a cause to raise does raise. -/
theorem exec_of_raiseCause {i : Instr} (h : s.err = 0) (hcause : RaiseCause s (.instr i) k info) :
    exec i s = .next (s.failedBy (.instr i) k info) := by
  cases hcause with
  | noEntries hft => exact (exec_build_ok h).trans (congrArg _ (buildBody_nil hft))
  | noTree htree => exact exec_assign_without_tree h htree
  | unknownSymbol hunknown => exact exec_encode_of_unknown h hunknown
  | noHeader hin => exact exec_decode_of_noHeader h hin
  | padTooLarge hin hpad => exact exec_decode_of_padTooLarge h hin hpad
  | ambiguousTable hin hpad hamb => exact exec_decode_of_ambiguous h hin hpad hamb
  | leftover hin hpad hinj hparse hcand => exact exec_decode_of_leftover h hin hpad hinj hparse hcand

end Causes

/-! ## What a command word does to `ERR` and `ERR_INFO` (R200, R206) -/

/-- What `ERR` and `ERR_INFO` are in `t`, the answer of `s` to a word that decodes to `d`. -/
inductive ErrorOutcome (s : State) (d : Decoded) (t : State) : Prop
  /-- Both are as they were. -/
  | kept (herr : t.err = s.err) (hinfo : t.errInfo = s.errInfo)
  /-- Both are cleared. -/
  | cleared (herr : t.err = 0) (hinfo : t.errInfo = {})
  /-- A failure was raised. -/
  | raised {k : FailKind} {info : ErrInfo} (hcause : RaiseCause s d k info) (ht : t = s.failedBy d k info)

/-- The raise of each command that can raise is for its cause; its success keeps `ERR` and `ERR_INFO`. -/
theorem buildBody_errorOutcome (s : State) : ErrorOutcome s (.instr .build) (buildBody s) := by
  obtain ⟨hft, heq⟩ | ⟨-, root, -, heq⟩ := buildBody_cases s
  · exact .raised (.noEntries hft) heq
  · rw [heq]
    exact .kept rfl rfl

theorem assignBody_errorOutcome (s : State) : ErrorOutcome s (.instr .assign) (assignBody s) := by
  obtain ⟨htree, heq⟩ | ⟨root, -, heq⟩ := assignBody_cases s
  · exact .raised (.noTree htree) heq
  · rw [heq]
    exact .kept rfl rfl

theorem encodeBody_errorOutcome (s : State) : ErrorOutcome s (.instr .encode) (encodeBody s) := by
  obtain ⟨codes, -, heq⟩ | ⟨i, x, hunknown, heq⟩ := encodeBody_cases s
  · rw [heq]
    exact .kept rfl rfl
  · exact .raised (.unknownSymbol hunknown) heq

theorem decodeBody_errorOutcome (s : State) : ErrorOutcome s (.instr .decode) (decodeBody s) := by
  obtain ⟨hin, heq⟩ | ⟨h, rest, hin, ⟨hpad, heq⟩ | ⟨hpad, hamb, heq⟩ |
    ⟨hpad, hinj, entries, cand, hparse, ⟨-, heq⟩ | ⟨hcand, heq⟩⟩⟩ := decodeBody_cases s
  · exact .raised (.noHeader hin) heq
  · exact .raised (.padTooLarge hin hpad) heq
  · exact .raised (.ambiguousTable hin hpad hamb) heq
  · rw [heq]
    exact .kept rfl rfl
  · exact .raised (.leftover hin hpad hinj hparse hcand) heq

section Words
variable {c : Byte} {s t : State}

/-- Every command word keeps the two items, clears them, or raises for a cause of R200. -/
theorem issue_errorOutcome (h : s.err = 0) (hissue : issue c s = .next t) : ErrorOutcome s (decode c) t := by
  obtain ⟨hd, rfl⟩ | ⟨hd, rfl⟩ | ⟨hd, rfl⟩ | ⟨hd, rfl⟩ | ⟨hd, rfl⟩ | ⟨hd, rfl⟩ | ⟨hd, rfl⟩ | ⟨hd, rfl⟩ :=
    issue_cases h hissue <;> rw [hd]
  · exact .kept rfl rfl
  · exact buildBody_errorOutcome s
  · exact assignBody_errorOutcome s
  · exact encodeBody_errorOutcome s
  · exact decodeBody_errorOutcome s
  · exact .cleared rfl rfl
  · exact .cleared rfl rfl
  · exact .raised .noCommand rfl

/-- A word that raises has a cause of R200, and leaves the state of R206. -/
theorem raiseCause_of_issue (h : s.err = 0) (hissue : issue c s = .next t) (hfail : t.err ≠ 0) :
    ∃ k info, RaiseCause s (decode c) k info ∧ t = s.failedBy (decode c) k info := by
  cases issue_errorOutcome h hissue with
  | kept herr => exact absurd (herr.trans h) hfail
  | cleared herr => exact absurd herr hfail
  | raised hcause ht => exact ⟨_, _, hcause, ht⟩

/-- Where nothing is raised an empty `ERR_INFO` stays empty (R218). -/
theorem issue_errInfo_of_ok (h : s.err = 0) (hinfo : s.errInfo = {}) (hissue : issue c s = .next t) (hok : t.err = 0) :
    t.errInfo = {} := by
  cases issue_errorOutcome h hissue with
  | kept _ hkept => exact hkept.trans hinfo
  | cleared _ hcleared => exact hcleared
  | raised _ ht => exact absurd (ht ▸ hok) (FailKind.code_ne_zero _)

end Words

/-- A host write keeps `ERR` and `ERR_INFO` (R193). -/
theorem hostWrite_keeps_err {p : Config.Params} {w : HostWrite} {s t : State} (hwrite : hostWrite p w s = .next t) :
    t.err = s.err ∧ t.errInfo = s.errInfo := by
  obtain ⟨-, rfl⟩ := hostWrite_next hwrite
  cases w <;> exact ⟨rfl, rfl⟩

/-! ## Raises, their causes, retries, and the first failure (R206, R200, R211, R210) -/

/-- Settles O38: a word that raises leaves the state of R206, whichever its cause. -/
theorem raiseEmptiesOutputsAndKeepsTheRest : Obligations.RaiseEmptiesOutputsAndKeepsTheRest := by
  intro c s t h hissue hfail
  obtain ⟨k, info, -, rfl⟩ := raiseCause_of_issue h hissue hfail
  refine ⟨rfl, rfl, rfl, rfl, rfl, rfl, rfl, rfl, rfl, rfl, ?_, k, info, rfl, rfl, failedBy_eq_ite s _ k info⟩
  by_cases hd : decode c = .instr .build
  · exact .inl ⟨hd, if_pos hd⟩
  · exact .inr ⟨hd, if_neg hd⟩

/-- Settles O39: each cause of a raise is a row of R200 with its detail; host actions reach neither item. -/
theorem failureKindsCausesAndDetails : Obligations.FailureKindsCausesAndDetails := by
  refine ⟨fun c s t h hissue hfail => ?_, fun c s t => issue_errInfo_of_ok, fun p w s t => hostWrite_keeps_err,
    fun x s => ⟨rfl, rfl⟩⟩
  obtain ⟨k, info, hcause, rfl⟩ := raiseCause_of_issue h hissue hfail
  generalize hd : decode c = d at hcause
  cases hcause with
  | noEntries hft => exact .inl ⟨rfl, rfl, .inl ⟨rfl, hft⟩⟩
  | noTree htree => exact .inl ⟨rfl, rfl, .inr ⟨rfl, htree⟩⟩
  | unknownSymbol hunknown => exact .inr (.inl ⟨rfl, rfl, _, _, hunknown, rfl⟩)
  | ambiguousTable hin hpad hamb => exact .inr (.inr (.inl ⟨rfl, rfl, rfl, hamb⟩))
  | noHeader hin => exact .inr (.inr (.inr (.inl ⟨rfl, rfl, .inl ⟨hin, rfl⟩⟩)))
  | padTooLarge hin hpad => exact .inr (.inr (.inr (.inl ⟨rfl, rfl, .inr ⟨_, _, hin, .inl ⟨hpad, rfl⟩⟩⟩)))
  | leftover hin hpad hinj hparse hcand =>
    refine .inr (.inr (.inr (.inl ⟨rfl, rfl, .inr ⟨_, _, hin, .inr ⟨hpad, _, _, hparse, hcand, ?_⟩⟩⟩)))
    rw [streamBody_length]
    rfl
  | noCommand =>
    obtain rfl := decode_reserved hd
    exact .inr (.inr (.inr (.inr ⟨rfl, rfl, rfl⟩)))

/-- Settles O41: after CLRERR the cause of the raise is still there, and the raise leaves the state it left before. -/
theorem retryFailsTheSameWay : Obligations.RetryFailsTheSameWay := by
  intro i s t u h hexec hfail hclr
  obtain rfl := next_state_unique hclr (exec_clrerr t)
  obtain ⟨k, info, hcause, rfl⟩ := raiseCause_of_issue h ((issue_encode i s).trans hexec) hfail
  rw [decode_encode] at hcause ⊢
  have hretry := exec_of_raiseCause (clearError_err _) hcause.after_clearError
  rw [failedBy_clearError_failedBy] at hretry
  exact ⟨rfl, hretry⟩

/-- Settles O40: the gate ignores every other word, and host actions keep both items. -/
theorem firstFailureIsKept : Obligations.FirstFailureIsKept := by
  intro p e s t hfail hclr hrst hreset happly
  cases e with
  | cmd c =>
    obtain rfl := next_state_unique happly (issue_gated hfail (mt (congrArg _) hclr) (mt (congrArg _) hrst))
    exact ⟨rfl, rfl⟩
  | write w => exact hostWrite_keeps_err happly
  | read x =>
    cases happly
    exact ⟨rfl, rfl⟩
  | resetEvent => exact absurd rfl hreset

end Sys2Proof.Machine
end

section
/-! PROOF. Runs and the step (70_reset_and_hazards.md R244): every element of a run has a next state, and a run is the
host's core stepped as often as the run has elements. -/

namespace Sys2Proof.Machine

/-! ## The next state of an element -/

/-- An element of a run has a next state, a host write if it is not refused (R193 (c)). -/
theorem applyEvent_total {p : Config.Params} {e : HostEvent} {s : State}
    (hadmitted : ∀ w, e = .write w → writeRefusal p s.out w = none) : ∃ t, applyEvent p e s = .next t := by
  cases e with
  | cmd c => exact issue_total c s
  | write w => exact ⟨_, hostWrite_of_admitted (hadmitted w rfl)⟩
  | read x => exact ⟨_, applyEvent_read p x s⟩
  | resetEvent => exact ⟨_, rfl⟩

/-- No element of a run looks at those after it: one next state, or one refusal, serves whatever the host does next. -/
theorem applyEvent_setPending_cases (p : Config.Params) (e : HostEvent) (s : State) :
    (∃ t : State, ∀ v, applyEvent p e (s.setPending v) = .next (t.setPending v)) ∨
    (∃ r, ∀ v, applyEvent p e (s.setPending v) = .refused r) := by
  cases happly : applyEvent p e s with
  | next t => exact .inl ⟨t, fun v => by simpa [happly] using event_setPending p e s v⟩
  | refused r => exact .inr ⟨r, fun v => by simpa [happly] using event_setPending p e s v⟩
  | fault f => cases f

/-! ## The run of the host's core -/

section CoreRun
variable {M : Host.Core} {n : Nat} {s : M.State}

/-- A run of a core goes on from the next state of its first step. -/
theorem core_run_succ_of_next {t : M.State} (h : M.step s = .next t) : M.run (n + 1) s = M.run n t := by
  rw [Host.Core.run, h]

/-- A run of a core stops at a refusal. -/
theorem core_run_succ_of_refused {r : M.Refusal} (h : M.step s = .refused r) : M.run (n + 1) s = .refused r := by
  rw [Host.Core.run, h]

end CoreRun

/-- The core, stepped once for each pending action, runs through the actions (R244). -/
theorem core_run_eq_runEvents (es : List HostEvent) (s : State) :
    Host.Core.run Sys2Proof.core es.length (s.setPending es) = runEvents Config.unbounded es (s.setPending []) := by
  induction es generalizing s with
  | nil => rfl
  | cons e es ih =>
    have hstep : step (s.setPending (e :: es)) = applyEvent Config.unbounded e (s.setPending es) :=
      stepWith_of_pending Config.unbounded rfl
    rcases applyEvent_setPending_cases Config.unbounded e s with ⟨t, hnext⟩ | ⟨r, hrefused⟩
    · rw [runEvents_cons (hnext [])]
      exact (core_run_succ_of_next (hstep.trans (hnext es))).trans (ih t)
    · rw [runEvents, hrefused []]
      exact core_run_succ_of_refused (hstep.trans (hrefused es))

/-- Settles O51: the next states by the kind of the element, the run by induction on its elements. That no step faults
is the emptiness of `Fault` (log 11). -/
theorem runIsTheStepIterated : Obligations.RunIsTheStepIterated :=
  ⟨fun _ _ _ => applyEvent_total, fun _ _ => nofun, core_run_eq_runEvents⟩

end Sys2Proof.Machine
end
